-- ==== Sys2Proof/Word.lean ====
section
/-! DEFINITION. The three bit-vector types of the hardware: a 32-bit word (an instruction word, or the
contents of a `$acc` register), a 16-bit half (the contents of a half register), and a byte of a program
image. -/

namespace Sys2Proof

/-- 32 bits: an instruction word `insn[31:0]`, bit 0 least significant (00_scope.md R4, 30_encoding.md R45), or
the contents of a `$acc` register (10_state.md R10). The bit order and the exact width are DESIGN CHOICES of the spec
(log entry 13; safe for the width, unsafe for words written as numbers). -/
abbrev Word := BitVec 32

/-- 16 bits: the contents of a half register (10_state.md R11). -/
abbrev HalfWord := BitVec 16

/-- One byte of a program image; only the loader of 20_memory.md R32 sees one. -/
abbrev Byte := BitVec 8

end Sys2Proof
end

