-- ==== Sys2Proof/Syntax.lean ====
section
/-! DEFINITION. Instructions as syntax: the register names, the qualifier fields a decoder records, and one
constructor of `Instr` for each row of spec/opcode_table.json. -/

namespace Sys2Proof

/-- The eight general registers (10_state.md R10). -/
inductive Acc where
  | acc0 | acc1 | acc2 | acc3 | acc4 | acc5 | acc6 | acc7
  deriving DecidableEq, Repr

/-- Which half of a `$acc` register a half-register name means: the suffix `l` or `h` (10_state.md R11, R13). -/
inductive Side where
  | l | h
  deriving DecidableEq, Repr

/-- One of the sixteen half registers `$acc0l` to `$acc7h` (10_state.md R11). -/
structure Half where
  acc  : Acc
  side : Side
  deriving DecidableEq, Repr

/-- The three qualifier fields, recorded in every decoded instruction (30_encoding.md R49, R57, R62 step 7).
That they change nothing is a DESIGN CHOICE of the spec, unsafe (log entry 6). -/
structure Quals where
  /-- `PR`, bits `[31:30]`. -/
  pr : BitVec 2
  /-- `T`, bit `[29]`. -/
  t  : BitVec 1
  /-- `P`, bit `[0]`. -/
  p  : BitVec 1
  deriving DecidableEq, Repr

/-- The three shift kinds (30_encoding.md R60): arithmetic right, logical left, logical right. -/
inductive ShiftKind where
  | ra | ll | rl
  deriving DecidableEq, Repr

/-- The fourteen instructions (00_scope.md R1). Operands stand in the source's order `Operand_0`, `Operand_1`,
`Operand_2`: sources first, the destination last (30_encoding.md R65). The NOT forms have no `Operand_1`
(30_encoding.md R61; 90_conflicts.md C5; DESIGN CHOICE of the spec, unsafe, log entry 15). A shift's `Operand_1` is the half register that holds the amount. -/
inductive Instr where
  | and32     (q : Quals) (op0 op1 op2 : Acc)
  | or32      (q : Quals) (op0 op1 op2 : Acc)
  | xor32     (q : Quals) (op0 op1 op2 : Acc)
  | not32     (q : Quals) (op0 op2 : Acc)
  | shiftra32 (q : Quals) (op0 : Acc) (op1 : Half) (op2 : Acc)
  | shiftll32 (q : Quals) (op0 : Acc) (op1 : Half) (op2 : Acc)
  | shiftrl32 (q : Quals) (op0 : Acc) (op1 : Half) (op2 : Acc)
  | and16     (q : Quals) (op0 op1 op2 : Half)
  | or16      (q : Quals) (op0 op1 op2 : Half)
  | xor16     (q : Quals) (op0 op1 op2 : Half)
  | not16     (q : Quals) (op0 op2 : Half)
  | shiftra16 (q : Quals) (op0 op1 op2 : Half)
  | shiftll16 (q : Quals) (op0 op1 op2 : Half)
  | shiftrl16 (q : Quals) (op0 op1 op2 : Half)
  deriving DecidableEq, Repr

/-- The recorded qualifier fields of an instruction. -/
def Instr.quals : Instr → Quals
  | .and32 q _ _ _ => q
  | .or32 q _ _ _ => q
  | .xor32 q _ _ _ => q
  | .not32 q _ _ => q
  | .shiftra32 q _ _ _ => q
  | .shiftll32 q _ _ _ => q
  | .shiftrl32 q _ _ _ => q
  | .and16 q _ _ _ => q
  | .or16 q _ _ _ => q
  | .xor16 q _ _ _ => q
  | .not16 q _ _ => q
  | .shiftra16 q _ _ _ => q
  | .shiftll16 q _ _ _ => q
  | .shiftrl16 q _ _ _ => q

/-- The same instruction with other qualifier fields (30_encoding.md R57). -/
def Instr.withQuals (q : Quals) : Instr → Instr
  | .and32 _ a b d => .and32 q a b d
  | .or32 _ a b d => .or32 q a b d
  | .xor32 _ a b d => .xor32 q a b d
  | .not32 _ a d => .not32 q a d
  | .shiftra32 _ a b d => .shiftra32 q a b d
  | .shiftll32 _ a b d => .shiftll32 q a b d
  | .shiftrl32 _ a b d => .shiftrl32 q a b d
  | .and16 _ a b d => .and16 q a b d
  | .or16 _ a b d => .or16 q a b d
  | .xor16 _ a b d => .xor16 q a b d
  | .not16 _ a d => .not16 q a d
  | .shiftra16 _ a b d => .shiftra16 q a b d
  | .shiftll16 _ a b d => .shiftll16 q a b d
  | .shiftrl16 _ a b d => .shiftrl16 q a b d

end Sys2Proof
end

