-- ==== Sys2Proof/Config.lean ====
section
/-! DEFINITION. What the source leaves open and a model takes as a parameter (00_scope.md R3,
92_eei_decisions.md "Parameters left OPEN"): the five `IC` values and the optional qualifier predicate as plain
data, the byte order of a program image, and the free value `SHIFT_OOR`. -/

namespace Sys2Proof

/-- `INSN_BYTE_ORDER` (20_memory.md R32): `OPEN`, an argument of the loader of a byte image, read by no step. -/
inductive ByteOrder where
  | little | big
  deriving DecidableEq, Repr

/-- The configuration of a run (70_reset_and_hazards.md R121): plain data, fixed at launch. -/
structure Config where
  /-- `IC_AND` (30_encoding.md R58). -/
  icAnd : BitVec 5
  /-- `IC_OR`. -/
  icOr : BitVec 5
  /-- `IC_XOR`. -/
  icXor : BitVec 5
  /-- `IC_NOT`. -/
  icNot : BitVec 5
  /-- `IC_SHIFT`. -/
  icShift : BitVec 5
  /-- `qualifier_admitted` (30_encoding.md R57) as a table of sixteen bits: bit `PR ++ T ++ P`, read as a number
  0..15, is 1 when that combination is admitted. -/
  admitted : BitVec 16
  deriving DecidableEq, Repr

/-- DESIGN CHOICE (safe for semantics, log entry 2): the spec's own default configuration, `IC` values 0 to 4
(30_encoding.md R58) and every qualifier combination admitted (92_eei_decisions.md D6). -/
def Config.default : Config where
  icAnd := 0#5
  icOr := 1#5
  icXor := 2#5
  icNot := 3#5
  icShift := 4#5
  admitted := 0xFFFF#16

/-- `qualifier_admitted(PR, T, P)` of 30_encoding.md R57. -/
def Config.admits (c : Config) (q : Quals) : Bool :=
  c.admitted.getLsbD (q.pr ++ q.t ++ q.p).toNat

/-- FREE VALUE (log entry 1): `SHIFT_OOR(kind, W, x, n)` of 41_shift32.md R89 and 43_shift16.md R99, the result of
a shift whose amount `n` is at or above the data width `W`. A total function of its arguments alone; it has no
body, so nothing about its values can be proved and every statement about the model holds for every such
function. -/
opaque Config.shiftOor (kind : ShiftKind) (W : Nat) (x : BitVec W) (n : Nat) : BitVec W

end Sys2Proof
end

