-- ==== Sys2Proof/WellFormed.lean ====
section
/-! DEFINITION. When a configuration and an instruction under it are well formed. Register operands need no
check: every value of `Acc` and `Half` names an existing register (30_encoding.md R62, last paragraph). -/

namespace Sys2Proof

/-- The five `IC` parameters in the order of 30_encoding.md R58. -/
def Config.icValues (c : Config) : List (BitVec 5) :=
  [c.icAnd, c.icOr, c.icXor, c.icNot, c.icShift]

/-- The five `IC` values are pairwise distinct, "otherwise two instructions have the same word"
(30_encoding.md R58). -/
abbrev Config.wf (c : Config) : Prop := c.icValues.Nodup

/-- The configuration admits the instruction's qualifier fields (30_encoding.md R57). Under the default
configuration every instruction is well formed. -/
abbrev Instr.wf (c : Config) (i : Instr) : Prop := c.admits i.quals = true

end Sys2Proof
end

