-- ==== Sys2Proof/Decode.lean ====
section
/-! DEFINITION. Instruction words: register numbers, the total decoder with its refusal reasons, the encoder,
the derived signal `true_32bit_insn`, and the loader of a program from a byte image (30_encoding.md). -/

namespace Sys2Proof

/-- Why a word has no meaning (30_encoding.md R62, R63; 60_exceptions.md R102). Raised by `decode` alone. Each is
SAFE: it says only that nothing is claimed about the word, not that the chip traps or ignores it. -/
inductive DecodeReason where
  /-- `S = insn[1]` is 0: the 16-bit kind, of which none is defined (R46, R47). -/
  | notA32BitWord
  /-- `FU = insn[3:2]` is not `2'b10` (R63). -/
  | otherFunctionalUnit
  /-- `IC = insn[8:4]` is none of the five parameters (R58, R63). -/
  | unassignedIC
  /-- A bit that no field of the format covers is 1 (R56). -/
  | unlistedBitsNonzero
  /-- Class SHIFT with `ShiftDirLeft = 1` and `ShiftArith = 1` (R60). -/
  | reservedShiftKind
  /-- The optional predicate `qualifier_admitted` rejects the word's `PR`, `T`, `P` (R57); never raised under a
  configuration that admits all, as the default one does. -/
  | qualifierNotAdmitted
  deriving DecidableEq, Repr

/-! ### Register numbers -/

/-- The number `n` of `$acc<n>` (10_state.md R10). -/
def Acc.number : Acc → Nat
  | .acc0 => 0 | .acc1 => 1 | .acc2 => 2 | .acc3 => 3
  | .acc4 => 4 | .acc5 => 5 | .acc6 => 6 | .acc7 => 7

/-- The 3-bit field value that names a `$acc` register (30_encoding.md R54). -/
def Acc.code (r : Acc) : BitVec 3 := BitVec.ofNat 3 r.number

/-- The `$acc` register that a 3-bit field value names (30_encoding.md R54). -/
def accOfCode (f : BitVec 3) : Acc :=
  match f.toNat with
  | 0 => .acc0 | 1 => .acc1 | 2 => .acc2 | 3 => .acc3
  | 4 => .acc4 | 5 => .acc5 | 6 => .acc6 | _ => .acc7

/-- `h` of 10_state.md R12: 0 for the low half, 1 for the high half. -/
def Side.number : Side → Nat
  | .l => 0
  | .h => 1

/-- The index `i = 2*n + h` of a half register (10_state.md R12). DESIGN CHOICE of the spec, unsafe (log entry 7). -/
def Half.index (r : Half) : Nat := 2 * r.acc.number + r.side.number

/-- The 4-bit field value that names a half register (30_encoding.md R55). -/
def Half.code (r : Half) : BitVec 4 := BitVec.ofNat 4 r.index

/-- The half register that a 4-bit field value names: `$acc` number in bits `[3:1]`, half in bit 0
(10_state.md R12, 30_encoding.md R55). DESIGN CHOICE of the spec, unsafe (log entry 7). -/
def halfOfCode (f : BitVec 4) : Half where
  acc := accOfCode (f.extractLsb' 1 3)
  side := if f.getLsbD 0 then .h else .l

/-! ### What selects an instruction -/

/-- The derived signal of 30_encoding.md R48, `insn[1] & insn[29]`. No step reads it. -/
def true32BitInsn (w : Word) : Bool := w.getLsbD 1 && w.getLsbD 29

/-- The four logic operation classes of 30_encoding.md R58. -/
inductive LogicOp where
  | and | or | xor | not
  deriving DecidableEq, Repr

/-- The five operation classes of 30_encoding.md R58. -/
inductive OpClass where
  | logic (op : LogicOp)
  | shift
  deriving DecidableEq, Repr

/-- The class an `IC` value selects under a configuration (30_encoding.md R58, R62 step 3). -/
def classOf (c : Config) (ic : BitVec 5) : Option OpClass :=
  if ic = c.icAnd then some (.logic .and)
  else if ic = c.icOr then some (.logic .or)
  else if ic = c.icXor then some (.logic .xor)
  else if ic = c.icNot then some (.logic .not)
  else if ic = c.icShift then some .shift
  else none

/-- The shift kind of `ShiftDirLeft ++ ShiftArith = insn[23:22]` (30_encoding.md R60). -/
def shiftKindOf (f : BitVec 2) : Option ShiftKind :=
  if f = 1#2 then some .ra
  else if f = 2#2 then some .ll
  else if f = 0#2 then some .rl
  else none

/-- The qualifier fields of a word (30_encoding.md R49). -/
def qualsOf (w : Word) : Quals where
  pr := w.extractLsb' 30 2
  t := w.extractLsb' 29 1
  p := w.extractLsb' 0 1

/-- The `*32` logic instruction of a class; a NOT drops the `OP1` field (30_encoding.md R61). -/
def logic32Instr : LogicOp → Quals → Acc → Acc → Acc → Instr
  | .and, q, a, b, d => .and32 q a b d
  | .or, q, a, b, d => .or32 q a b d
  | .xor, q, a, b, d => .xor32 q a b d
  | .not, q, a, _, d => .not32 q a d

/-- The `*16` logic instruction of a class; a NOT drops the `OP1` field (30_encoding.md R61). -/
def logic16Instr : LogicOp → Quals → Half → Half → Half → Instr
  | .and, q, a, b, d => .and16 q a b d
  | .or, q, a, b, d => .or16 q a b d
  | .xor, q, a, b, d => .xor16 q a b d
  | .not, q, a, _, d => .not16 q a d

/-- The `*32` shift of a kind. -/
def shift32Instr : ShiftKind → Quals → Acc → Half → Acc → Instr
  | .ra, q, a, b, d => .shiftra32 q a b d
  | .ll, q, a, b, d => .shiftll32 q a b d
  | .rl, q, a, b, d => .shiftrl32 q a b d

/-- The `*16` shift of a kind. -/
def shift16Instr : ShiftKind → Quals → Half → Half → Half → Instr
  | .ra, q, a, b, d => .shiftra16 q a b d
  | .ll, q, a, b, d => .shiftll16 q a b d
  | .rl, q, a, b, d => .shiftrl16 q a b d

/-! ### The decoder -/

/-- 30_encoding.md R62 step 6 for a logic class: formats `L32` (R50) and `L16` (R52). The field
positions and `OPSize16` are the resolution of 90_conflicts.md C1 and C3 (DEDUCED, unsafe for words, log entry 14). -/
def decodeLogic (op : LogicOp) (w : Word) : Except DecodeReason Instr :=
  if w.extractLsb' 22 2 ≠ 0#2 then .error .unlistedBitsNonzero
  else if w.extractLsb' 21 1 = 1#1 then
    .ok (logic16Instr op (qualsOf w) (halfOfCode (w.extractLsb' 9 4)) (halfOfCode (w.extractLsb' 13 4))
      (halfOfCode (w.extractLsb' 17 4)))
  else if w.extractLsb' 17 1 = 1#1 ∨ w.extractLsb' 13 1 = 1#1 ∨ w.extractLsb' 9 1 = 1#1 then .error .unlistedBitsNonzero
  else
    .ok (logic32Instr op (qualsOf w) (accOfCode (w.extractLsb' 10 3)) (accOfCode (w.extractLsb' 14 3))
      (accOfCode (w.extractLsb' 18 3)))

/-- 30_encoding.md R62 step 6 for class SHIFT: formats `S32` (R51) and `S16` (R53). The field positions
and `OPSize16` are the resolution of 90_conflicts.md C1 to C3 (DEDUCED, unsafe for words, log entry 14). -/
def decodeShift (w : Word) : Except DecodeReason Instr :=
  match shiftKindOf (w.extractLsb' 22 2) with
  | none => .error .reservedShiftKind
  | some kind =>
    if w.extractLsb' 21 1 = 1#1 then
      .ok (shift16Instr kind (qualsOf w) (halfOfCode (w.extractLsb' 9 4)) (halfOfCode (w.extractLsb' 13 4))
        (halfOfCode (w.extractLsb' 17 4)))
    else if w.extractLsb' 17 1 = 1#1 ∨ w.extractLsb' 9 1 = 1#1 then .error .unlistedBitsNonzero
    else
      .ok (shift32Instr kind (qualsOf w) (accOfCode (w.extractLsb' 10 3)) (halfOfCode (w.extractLsb' 13 4))
        (accOfCode (w.extractLsb' 18 3)))

/-- Step 6 of 30_encoding.md R62, by class. -/
def decodeClass : OpClass → Word → Except DecodeReason Instr
  | .logic op, w => decodeLogic op w
  | .shift, w => decodeShift w

/-- The decoder of 30_encoding.md R62, its tests in that order (60_exceptions.md R103). Total: every word gives one
instruction or one reason. Refusing the other words is a DESIGN CHOICE of the spec, safe (log entry 11). The optional qualifier test stands last (DESIGN CHOICE, safe, log entry 5: the spec gives
its place in the order nowhere). -/
def decode (c : Config) (w : Word) : Except DecodeReason Instr :=
  if w.extractLsb' 1 1 ≠ 1#1 then .error .notA32BitWord
  else if w.extractLsb' 2 2 ≠ 2#2 then .error .otherFunctionalUnit
  else match classOf c (w.extractLsb' 4 5) with
    | none => .error .unassignedIC
    | some k =>
      if w.extractLsb' 24 5 ≠ 0#5 then .error .unlistedBitsNonzero
      else match decodeClass k w with
        | .error r => .error r
        | .ok i => if c.admits (qualsOf w) then .ok i else .error .qualifierNotAdmitted

/-! ### The encoder -/

/-- Format `L32` (30_encoding.md R50), bit 31 first. -/
def wordL32 (ic : BitVec 5) (q : Quals) (op2 op1 op0 : BitVec 3) : Word :=
  q.pr ++ q.t ++ 0#7 ++ 0#1 ++ op2 ++ 0#1 ++ op1 ++ 0#1 ++ op0 ++ 0#1 ++ ic ++ 2#2 ++ 1#1 ++ q.p

/-- Format `S32` (30_encoding.md R51), bit 31 first. -/
def wordS32 (ic : BitVec 5) (q : Quals) (dirLeft arith : BitVec 1) (op2 : BitVec 3) (op1 : BitVec 4)
    (op0 : BitVec 3) : Word :=
  q.pr ++ q.t ++ 0#5 ++ dirLeft ++ arith ++ 0#1 ++ op2 ++ 0#1 ++ op1 ++ op0 ++ 0#1 ++ ic ++ 2#2 ++ 1#1 ++ q.p

/-- Format `L16` (30_encoding.md R52), bit 31 first. -/
def wordL16 (ic : BitVec 5) (q : Quals) (op2 op1 op0 : BitVec 4) : Word :=
  q.pr ++ q.t ++ 0#7 ++ 1#1 ++ op2 ++ op1 ++ op0 ++ ic ++ 2#2 ++ 1#1 ++ q.p

/-- Format `S16` (30_encoding.md R53), bit 31 first. -/
def wordS16 (ic : BitVec 5) (q : Quals) (dirLeft arith : BitVec 1) (op2 op1 op0 : BitVec 4) : Word :=
  q.pr ++ q.t ++ 0#5 ++ dirLeft ++ arith ++ 1#1 ++ op2 ++ op1 ++ op0 ++ ic ++ 2#2 ++ 1#1 ++ q.p

/-- The canonical word of an instruction under a configuration (30_encoding.md R67). -/
def encode (c : Config) : Instr → Word
  | .and32 q a b d => wordL32 c.icAnd q d.code b.code a.code
  | .or32 q a b d => wordL32 c.icOr q d.code b.code a.code
  | .xor32 q a b d => wordL32 c.icXor q d.code b.code a.code
  | .not32 q a d => wordL32 c.icNot q d.code 0#3 a.code
  | .shiftra32 q a b d => wordS32 c.icShift q 0#1 1#1 d.code b.code a.code
  | .shiftll32 q a b d => wordS32 c.icShift q 1#1 0#1 d.code b.code a.code
  | .shiftrl32 q a b d => wordS32 c.icShift q 0#1 0#1 d.code b.code a.code
  | .and16 q a b d => wordL16 c.icAnd q d.code b.code a.code
  | .or16 q a b d => wordL16 c.icOr q d.code b.code a.code
  | .xor16 q a b d => wordL16 c.icXor q d.code b.code a.code
  | .not16 q a d => wordL16 c.icNot q d.code 0#4 a.code
  | .shiftra16 q a b d => wordS16 c.icShift q 0#1 1#1 d.code b.code a.code
  | .shiftll16 q a b d => wordS16 c.icShift q 1#1 0#1 d.code b.code a.code
  | .shiftrl16 q a b d => wordS16 c.icShift q 0#1 0#1 d.code b.code a.code

/-! ### Program images as bytes -/

/-- The word that four consecutive bytes of an image hold, the first at the lowest address (20_memory.md R32). -/
def wordOfBytes (o : ByteOrder) (b0 b1 b2 b3 : Byte) : Word :=
  match o with
  | .little => b3 ++ b2 ++ b1 ++ b0
  | .big => b0 ++ b1 ++ b2 ++ b3

/-- The four bytes of a word as an image holds them, lowest address first (20_memory.md R32). -/
def bytesOfWord (o : ByteOrder) (w : Word) : List Byte :=
  match o with
  | .little => [w.extractLsb' 0 8, w.extractLsb' 8 8, w.extractLsb' 16 8, w.extractLsb' 24 8]
  | .big => [w.extractLsb' 24 8, w.extractLsb' 16 8, w.extractLsb' 8 8, w.extractLsb' 0 8]

/-- Why a byte image is no program. Raised by `loadImage` alone, SAFE: nothing runs. -/
inductive LoadError where
  /-- The image ends inside a word. A program is a list of whole 32-bit words (20_memory.md R30, R31); that such an image
  is no program is a DESIGN CHOICE, safe (log entry 17). -/
  | partialWord
  deriving DecidableEq, Repr

/-- The program a byte image holds, for a tool that loads one (20_memory.md R32). DESIGN CHOICE, safe (log entry 17):
the order is an argument and no step reads it. -/
def loadImage (o : ByteOrder) : List Byte → Except LoadError (List Word)
  | [] => .ok []
  | b0 :: b1 :: b2 :: b3 :: rest =>
    match loadImage o rest with
    | .ok ws => .ok (wordOfBytes o b0 b1 b2 b3 :: ws)
    | .error e => .error e
  | _ => .error .partialWord

/-! ### The opcode table's words -/

/-- The instruction word of a table row's bits, every bit from `nbits` on being 0. -/
def tableWord (nbits w : Nat) : Word := BitVec.ofNat 32 (w % 2 ^ nbits)

/-- The instruction the decoder reads from a table row's word under the default configuration, which is the one
spec/opcode_table.json is written in. A word is one item of the program, so no byte order enters. -/
def decodeTableWord (nbits w : Nat) : Option Instr :=
  match decode Config.default (tableWord nbits w) with
  | .ok i => some i
  | .error _ => none

end Sys2Proof
end

