-- ==== Sys2Proof/Machine/State.lean ====
section
/-! DEFINITION. The machine's state as plain data, its stop reasons, the launch state and the state after
reset (10_state.md; 70_reset_and_hazards.md). -/

namespace Sys2Proof.Machine

/-- Why a step stops with a fault. No instruction raises one: the fourteen are total (60_exceptions.md R100). -/
inductive Fault where
  /-- Raised by `step` when `pc` is at or past the end of the program: the run is over (70_reset_and_hazards.md
  R123) and `Fetch(pc)` is not defined (20_memory.md R30). No event of the hardware. SAFE: it says nothing of what
  the chip fetches next (DESIGN CHOICE, log entry 9). -/
  | runOver
  deriving DecidableEq, Repr

/-- Why a step refuses (60_exceptions.md R102). A refusal is no event of the hardware. -/
inductive Refusal where
  /-- Raised by `exec` for an instruction that has no meaning yet; no arm raises it. SAFE. -/
  | notModelled (mnemonic : String)
  /-- Raised by `step` when the word at `pc` is none of the fourteen instructions, with `decode`'s reason
  (30_encoding.md R63). SAFE: nothing is claimed about the word. -/
  | undecodable (reason : DecodeReason)
  deriving DecidableEq, Repr

/-- The register file: `$acc0` to `$acc7`, 32 bits each, 256 bits in all; the half registers are parts of it
(10_state.md R10, R13). -/
structure AccFile where
  acc0 : Word
  acc1 : Word
  acc2 : Word
  acc3 : Word
  acc4 : Word
  acc5 : Word
  acc6 : Word
  acc7 : Word
  deriving DecidableEq, Repr

/-- What the host fixes for a run at launch and no step changes: the program `W[0..N-1]` (20_memory.md R30) and the
configuration (70_reset_and_hazards.md R121). The spec calls them parameters (10_state.md R23); they stand in the
state because a step has no other argument (DESIGN CHOICE, safe, log entry 4). -/
structure Launch where
  program : List Word
  config  : Config
  deriving DecidableEq, Repr

/-- The state of the one agent (00_scope.md R9): registers, program counter, the recorded refusal, and the
parameters of the run. There are no flags, control registers, modes or data memory (10_state.md R17, R18, R20). -/
structure State where
  /-- `$acc0` to `$acc7` (10_state.md R10). -/
  acc : AccFile
  /-- The index of the next word to execute: a natural number, with no width and no wrap (10_state.md R16).
  DESIGN CHOICE of the spec, safe (log entry 19). -/
  pc : Nat
  /-- The mark a refused step leaves for the rest of the run (60_exceptions.md R102). DESIGN CHOICE, safe
  (log entry 10). -/
  refusal : Option Refusal
  /-- The program and the configuration. -/
  launch : Launch
  deriving DecidableEq, Repr

/-- The launch state of 70_reset_and_hazards.md R121: the host supplies the parameters and the eight register values,
which are free; `pc = 0` and no refusal is recorded. -/
def State.launched (p : Launch) (regs : AccFile) : State where
  acc := regs
  pc := 0
  refusal := none
  launch := p

/-- DESIGN CHOICE (unsafe, log entry 3): the spec states no reset value for the registers and forbids assuming zero
(10_state.md R22). The model takes the recognisable values of 95_test_vectors.md P6; no statement rests on them. -/
def AccFile.reset : AccFile where
  acc0 := 0x11111111#32
  acc1 := 0x22222222#32
  acc2 := 0x33333333#32
  acc3 := 0x44444444#32
  acc4 := 0x55555555#32
  acc5 := 0x66666666#32
  acc6 := 0x77777777#32
  acc7 := 0x88888888#32

/-- The machine right after reset: `pc = 0` (10_state.md R22), no refusal, no program placed, the default
configuration (log entry 2), and the registers at the values log entry 3 names. -/
def State.reset : State :=
  State.launched { program := [], config := Config.default } AccFile.reset

end Sys2Proof.Machine
end

