-- ==== Sys2Proof/Machine/Ops.lean ====
section
/-! DEFINITION. The named operations every instruction is written over: register and half-register reads and
writes, completing an instruction, fetching a word, and recording a refusal. Every access to a register goes
through these. There is no exception to take and none to return from (60_exceptions.md R100, R104, R105). -/

namespace Sys2Proof.Machine

/-- `acc[n]` of 00_scope.md R6: all 32 bits of `$acc<n>`. -/
def AccFile.read (f : AccFile) : Acc → Word
  | .acc0 => f.acc0
  | .acc1 => f.acc1
  | .acc2 => f.acc2
  | .acc3 => f.acc3
  | .acc4 => f.acc4
  | .acc5 => f.acc5
  | .acc6 => f.acc6
  | .acc7 => f.acc7

/-- `acc[n] <- v` of 00_scope.md R6. -/
def AccFile.write (f : AccFile) (r : Acc) (v : Word) : AccFile :=
  match r with
  | .acc0 => { f with acc0 := v }
  | .acc1 => { f with acc1 := v }
  | .acc2 => { f with acc2 := v }
  | .acc3 => { f with acc3 := v }
  | .acc4 => { f with acc4 := v }
  | .acc5 => { f with acc5 := v }
  | .acc6 => { f with acc6 := v }
  | .acc7 => { f with acc7 := v }

/-- The 16 bits of a `$acc` value that a half register is: `[15:0]` or `[31:16]` (10_state.md R13). DESIGN CHOICE of the
spec, unsafe (log entry 7). -/
def halfOf (v : Word) : Side → HalfWord
  | .l => v.extractLsb' 0 16
  | .h => v.extractLsb' 16 16

/-- A `$acc` value with one half replaced and the other kept (10_state.md R14). DESIGN CHOICE of the spec, unsafe
(log entry 7). -/
def withHalf (v : Word) (side : Side) (x : HalfWord) : Word :=
  match side with
  | .l => v.extractLsb' 16 16 ++ x
  | .h => x ++ v.extractLsb' 0 16

/-- `half[i]` (10_state.md R12, R13). -/
def AccFile.readHalf (f : AccFile) (r : Half) : HalfWord := halfOf (f.read r.acc) r.side

/-- `half[i] <- v` (10_state.md R14). -/
def AccFile.writeHalf (f : AccFile) (r : Half) (v : HalfWord) : AccFile :=
  f.write r.acc (withHalf (f.read r.acc) r.side v)

/-- Read of `$acc<n>` in a state. -/
def State.readAcc (s : State) (r : Acc) : Word := s.acc.read r

/-- Read of a half register in a state. -/
def State.readHalf (s : State) (r : Half) : HalfWord := s.acc.readHalf r

/-- Write of `$acc<n>` in a state. -/
def State.writeAcc (s : State) (r : Acc) (v : Word) : State := { s with acc := s.acc.write r v }

/-- Write of a half register in a state. -/
def State.writeHalf (s : State) (r : Half) (v : HalfWord) : State := { s with acc := s.acc.writeHalf r v }

/-- `pc <- pc + 1` (10_state.md R16). -/
def State.advance (s : State) : State := { s with pc := s.pc + 1 }

/-- Complete an instruction whose destination is a `$acc` register: write it, then `pc <- pc + 1`. -/
def completeAcc (s : State) (d : Acc) (v : Word) : Host.Outcome State Fault Refusal :=
  .next (s.writeAcc d v).advance

/-- Complete an instruction whose destination is a half register: write it, then `pc <- pc + 1`. -/
def completeHalf (s : State) (d : Half) (v : HalfWord) : Host.Outcome State Fault Refusal :=
  .next (s.writeHalf d v).advance

/-- `Fetch(pc)` (20_memory.md R30): the word at `pc`, none when `pc` is not below the program's length. -/
def State.fetch (s : State) : Option Word := s.launch.program[s.pc]?

/-- Record a refusal; registers and `pc` keep their values (60_exceptions.md R102, R110). -/
def State.recordRefusal (s : State) (r : Refusal) : State := { s with refusal := some r }

/-- A program with the word `w` at index `n`; a program that ends before `n` is filled up to `n` with zero words. -/
def placeWord (program : List Word) (n : Nat) (w : Word) : List Word :=
  program.take n ++ List.replicate (n - program.length) 0#32 ++ w :: program.drop (n + 1)

end Sys2Proof.Machine
end

