-- ==== Sys2Proof/Machine/Operands.lean ====
section
/-! DEFINITION. The two operand shapes and the shift results: what a `*32` and a `*16` logic or shift instruction
does once its operation is known. The source operands are read from the state before the write (10_state.md R15; DESIGN
CHOICE of the spec, unsafe, log entry 16).
The hardware has no flags (10_state.md R17), so there is no flag computation. -/

namespace Sys2Proof.Machine

/-- The result of a shift by `n < W` (41_shift32.md R85, 43_shift16.md R95): the exact integer result, narrowed to
`W` bits. Integer division by a positive number is `floor`. PRESUMED by the spec, unsafe (log entry 18). -/
def shiftInRange (kind : ShiftKind) {W : Nat} (x : BitVec W) (n : Nat) : BitVec W :=
  match kind with
  | .ra => BitVec.ofInt W (x.toInt / (2 ^ n : Nat))
  | .ll => BitVec.ofNat W (x.toNat * 2 ^ n)
  | .rl => BitVec.ofNat W (x.toNat / 2 ^ n)

/-- The result of a shift by any amount: in range the standard shift, else the free value `SHIFT_OOR`
(41_shift32.md R85, R89; 43_shift16.md R95, R99). -/
def shiftResult (kind : ShiftKind) {W : Nat} (x : BitVec W) (n : Nat) : BitVec W :=
  if n < W then shiftInRange kind x n else Config.shiftOor kind W x n

/-- A two-source `*32` logic instruction (40_logic32.md R80). The operations are the bitwise ones (PRESUMED by the spec,
unsafe, log entry 18). -/
def logic32 (f : Word → Word → Word) (op0 op1 op2 : Acc) (s : State) : Host.Outcome State Fault Refusal :=
  completeAcc s op2 (f (s.readAcc op0) (s.readAcc op1))

/-- A two-source `*16` logic instruction (42_logic16.md R90). -/
def logic16 (f : HalfWord → HalfWord → HalfWord) (op0 op1 op2 : Half) (s : State) :
    Host.Outcome State Fault Refusal :=
  completeHalf s op2 (f (s.readHalf op0) (s.readHalf op1))

/-- A `*32` shift: the amount is all 16 bits of the half register `op1`, read unsigned (41_shift32.md R85).
DESIGN CHOICE of the spec, safe (log entry 20). -/
def shift32 (kind : ShiftKind) (op0 : Acc) (op1 : Half) (op2 : Acc) (s : State) :
    Host.Outcome State Fault Refusal :=
  completeAcc s op2 (shiftResult kind (s.readAcc op0) (s.readHalf op1).toNat)

/-- A `*16` shift, its amount read likewise (43_shift16.md R95; log entry 20). -/
def shift16 (kind : ShiftKind) (op0 op1 op2 : Half) (s : State) : Host.Outcome State Fault Refusal :=
  completeHalf s op2 (shiftResult kind (s.readHalf op0) (s.readHalf op1).toNat)

end Sys2Proof.Machine
end

