-- ==== Sys2Proof/Machine/Logic16.lean ====
section
/-! DEFINITION. The meanings of `and16`, `or16`, `xor16`, `not16`: bitwise instructions on half registers (spec/42_logic16.md).
The qualifier fields are passed to each meaning and have no effect (30_encoding.md R57; log entry 6). -/

namespace Sys2Proof.Machine

/-- 42_logic16.md R91: bitwise AND of `Operand_0` and `Operand_1` into `Operand_2`. -/
def execAnd16 (_q : Quals) (op0 op1 op2 : Half) (s : State) : Host.Outcome State Fault Refusal :=
  logic16 (· &&& ·) op0 op1 op2 s

/-- 42_logic16.md R92: bitwise OR of `Operand_0` and `Operand_1` into `Operand_2`. -/
def execOr16 (_q : Quals) (op0 op1 op2 : Half) (s : State) : Host.Outcome State Fault Refusal :=
  logic16 (· ||| ·) op0 op1 op2 s

/-- 42_logic16.md R93: bitwise exclusive OR of `Operand_0` and `Operand_1` into `Operand_2`. -/
def execXor16 (_q : Quals) (op0 op1 op2 : Half) (s : State) : Host.Outcome State Fault Refusal :=
  logic16 (· ^^^ ·) op0 op1 op2 s

/-- 42_logic16.md R94: bitwise complement of `Operand_0` into `Operand_2`; the `OP1` field is not read. -/
def execNot16 (_q : Quals) (op0 op2 : Half) (s : State) : Host.Outcome State Fault Refusal :=
  completeHalf s op2 (~~~(s.readHalf op0))

end Sys2Proof.Machine
end

