-- ==== Sys2Proof/Machine/Logic32.lean ====
section
/-! DEFINITION. The meanings of `and32`, `or32`, `xor32`, `not32`: bitwise instructions on `$acc` registers (spec/40_logic32.md).
The qualifier fields are passed to each meaning and have no effect (30_encoding.md R57; log entry 6). -/

namespace Sys2Proof.Machine

/-- 40_logic32.md R81: bitwise AND of `Operand_0` and `Operand_1` into `Operand_2`. -/
def execAnd32 (_q : Quals) (op0 op1 op2 : Acc) (s : State) : Host.Outcome State Fault Refusal :=
  logic32 (· &&& ·) op0 op1 op2 s

/-- 40_logic32.md R82: bitwise OR of `Operand_0` and `Operand_1` into `Operand_2`. -/
def execOr32 (_q : Quals) (op0 op1 op2 : Acc) (s : State) : Host.Outcome State Fault Refusal :=
  logic32 (· ||| ·) op0 op1 op2 s

/-- 40_logic32.md R83: bitwise exclusive OR of `Operand_0` and `Operand_1` into `Operand_2`. -/
def execXor32 (_q : Quals) (op0 op1 op2 : Acc) (s : State) : Host.Outcome State Fault Refusal :=
  logic32 (· ^^^ ·) op0 op1 op2 s

/-- 40_logic32.md R84: bitwise complement of `Operand_0` into `Operand_2`; the `OP1` field is not read. -/
def execNot32 (_q : Quals) (op0 op2 : Acc) (s : State) : Host.Outcome State Fault Refusal :=
  completeAcc s op2 (~~~(s.readAcc op0))

end Sys2Proof.Machine
end

