-- ==== Sys2Proof/Machine/Shift16.lean ====
section
/-! DEFINITION. The meanings of `shiftra16`, `shiftll16`, `shiftrl16`: shifts of a half register by a half register (spec/43_shift16.md).
The qualifier fields are passed to each meaning and have no effect (30_encoding.md R57; log entry 6). -/

namespace Sys2Proof.Machine

/-- 43_shift16.md R96: arithmetic right shift of `Operand_0` by the amount in `Operand_1` into `Operand_2`. -/
def execShiftra16 (_q : Quals) (op0 op1 op2 : Half) (s : State) :
    Host.Outcome State Fault Refusal :=
  shift16 .ra op0 op1 op2 s

/-- 43_shift16.md R97: logical left shift of `Operand_0` by the amount in `Operand_1` into `Operand_2`. -/
def execShiftll16 (_q : Quals) (op0 op1 op2 : Half) (s : State) :
    Host.Outcome State Fault Refusal :=
  shift16 .ll op0 op1 op2 s

/-- 43_shift16.md R98: logical right shift of `Operand_0` by the amount in `Operand_1` into `Operand_2`. -/
def execShiftrl16 (_q : Quals) (op0 op1 op2 : Half) (s : State) :
    Host.Outcome State Fault Refusal :=
  shift16 .rl op0 op1 op2 s

end Sys2Proof.Machine
end

