-- ==== Sys2Proof/Machine/Shift32.lean ====
section
/-! DEFINITION. The meanings of `shiftra32`, `shiftll32`, `shiftrl32`: shifts of a `$acc` register by a half register (spec/41_shift32.md).
The qualifier fields are passed to each meaning and have no effect (30_encoding.md R57; log entry 6). -/

namespace Sys2Proof.Machine

/-- 41_shift32.md R86: arithmetic right shift of `Operand_0` by the amount in `Operand_1` into `Operand_2`. -/
def execShiftra32 (_q : Quals) (op0 : Acc) (op1 : Half) (op2 : Acc) (s : State) :
    Host.Outcome State Fault Refusal :=
  shift32 .ra op0 op1 op2 s

/-- 41_shift32.md R87: logical left shift of `Operand_0` by the amount in `Operand_1` into `Operand_2`. -/
def execShiftll32 (_q : Quals) (op0 : Acc) (op1 : Half) (op2 : Acc) (s : State) :
    Host.Outcome State Fault Refusal :=
  shift32 .ll op0 op1 op2 s

/-- 41_shift32.md R88: logical right shift of `Operand_0` by the amount in `Operand_1` into `Operand_2`. -/
def execShiftrl32 (_q : Quals) (op0 : Acc) (op1 : Half) (op2 : Acc) (s : State) :
    Host.Outcome State Fault Refusal :=
  shift32 .rl op0 op1 op2 s

end Sys2Proof.Machine
end

