-- ==== Sys2Proof/Machine/Dispatch.lean ====
section
/-! DEFINITION. The dispatch from an instruction to its meaning, one arm per constructor. -/

namespace Sys2Proof.Machine

/-- What each instruction does to a state (00_scope.md R9). -/
def exec (i : Instr) (s : State) : Host.Outcome State Fault Refusal :=
  match i with
  | .and32 q op0 op1 op2 => Sys2Proof.Machine.execAnd32 q op0 op1 op2 s
  | .or32 q op0 op1 op2 => Sys2Proof.Machine.execOr32 q op0 op1 op2 s
  | .xor32 q op0 op1 op2 => Sys2Proof.Machine.execXor32 q op0 op1 op2 s
  | .not32 q op0 op2 => Sys2Proof.Machine.execNot32 q op0 op2 s
  | .shiftra32 q op0 op1 op2 => Sys2Proof.Machine.execShiftra32 q op0 op1 op2 s
  | .shiftll32 q op0 op1 op2 => Sys2Proof.Machine.execShiftll32 q op0 op1 op2 s
  | .shiftrl32 q op0 op1 op2 => Sys2Proof.Machine.execShiftrl32 q op0 op1 op2 s
  | .and16 q op0 op1 op2 => Sys2Proof.Machine.execAnd16 q op0 op1 op2 s
  | .or16 q op0 op1 op2 => Sys2Proof.Machine.execOr16 q op0 op1 op2 s
  | .xor16 q op0 op1 op2 => Sys2Proof.Machine.execXor16 q op0 op1 op2 s
  | .not16 q op0 op2 => Sys2Proof.Machine.execNot16 q op0 op2 s
  | .shiftra16 q op0 op1 op2 => Sys2Proof.Machine.execShiftra16 q op0 op1 op2 s
  | .shiftll16 q op0 op1 op2 => Sys2Proof.Machine.execShiftll16 q op0 op1 op2 s
  | .shiftrl16 q op0 op1 op2 => Sys2Proof.Machine.execShiftrl16 q op0 op1 op2 s

end Sys2Proof.Machine
end

