-- ==== Sys2Proof/Machine/Step.lean ====
section
/-! DEFINITION. One step of the machine, the step that records a refusal, and the placing of one instruction
where the next fetch reads it. -/

namespace Sys2Proof.Machine

/-- One step (00_scope.md R9, 60_exceptions.md R102): a recorded refusal stays; at the end of the program the run is
over; else fetch the word at `pc`, decode it, and execute it or refuse it. The instruction itself sets
`pc <- pc + 1`. One agent, in order, no interrupt (DESIGN CHOICE of the spec, unsafe, log entry 12); the end of the
program and the recorded refusal are DESIGN CHOICES, safe (log entries 9, 10). -/
def step (s : State) : Host.Outcome State Fault Refusal :=
  match s.refusal with
  | some r => .refused r
  | none =>
    match s.fetch with
    | none => .fault .runOver
    | some w =>
      match decode s.launch.config w with
      | .error reason => .refused (.undecodable reason)
      | .ok i => exec i s

/-- A step as a run sees it: a refused step changes nothing but records its reason, and a run that is over stays
where it is (60_exceptions.md R102, R110; 70_reset_and_hazards.md R123). -/
def stepRecorded (s : State) : State :=
  match step s with
  | .next t => t
  | .fault _ => s
  | .refused r => s.recordRefusal r

/-- `k` recorded steps. -/
def runRecorded : Nat → State → State
  | 0, s => s
  | k + 1, s => runRecorded k (stepRecorded s)

/-- The state with the table word placed at `pc`, so that the next step fetches exactly it: the host's load of a
program (70_reset_and_hazards.md R121, R126; DESIGN CHOICE, safe, log entry 8). A recorded refusal is cleared, since a launch has none. -/
def State.withFetchWord (s : State) (nbits w : Nat) : State :=
  { s with
    refusal := none
    launch := { s.launch with program := placeWord s.launch.program s.pc (tableWord nbits w) } }

end Sys2Proof.Machine
end

