-- ==== Sys2Proof/Machine/Listing.lean ====
section
/-! DEFINITION. The spec's listing notation of an instruction (30_encoding.md R65): mnemonic, operands in the
source's order with the destination last, and the qualifier fields in braces unless they are `PR = 0, T = 1, P = 0`.
Notation only (92_eei_decisions.md D19): no step reads it. -/

namespace Sys2Proof

/-- The source's name of a `$acc` register (10_state.md R10). -/
def Acc.name (r : Acc) : String :=
  match r with
  | .acc0 => "$acc0"
  | .acc1 => "$acc1"
  | .acc2 => "$acc2"
  | .acc3 => "$acc3"
  | .acc4 => "$acc4"
  | .acc5 => "$acc5"
  | .acc6 => "$acc6"
  | .acc7 => "$acc7"

/-- The source's name of a half register (10_state.md R11). -/
def Half.name (r : Half) : String :=
  r.acc.name ++ (match r.side with | .l => "l" | .h => "h")

/-- The qualifier fields after the operands; absent when they are `PR = 0, T = 1, P = 0` (30_encoding.md R65). -/
def Quals.listing (q : Quals) : String :=
  if q = { pr := 0#2, t := 1#1, p := 0#1 } then ""
  else
    " " ++ String.singleton (Char.ofNat 123) ++ "PR=" ++ toString q.pr.toNat ++ ", T=" ++ toString q.t.toNat ++
      ", P=" ++ toString q.p.toNat ++ String.singleton (Char.ofNat 125)

/-- A three-operand listing line. -/
def listing3 (mnemonic a b d : String) (q : Quals) : String :=
  mnemonic ++ " " ++ a ++ ", " ++ b ++ ", " ++ d ++ q.listing

/-- A two-operand listing line, for the NOT forms. -/
def listing2 (mnemonic a d : String) (q : Quals) : String :=
  mnemonic ++ " " ++ a ++ ", " ++ d ++ q.listing

/-- An instruction in the spec's listing notation (30_encoding.md R65). -/
def Instr.listing : Instr → String
  | .and32 q a b d => listing3 "and32" a.name b.name d.name q
  | .or32 q a b d => listing3 "or32" a.name b.name d.name q
  | .xor32 q a b d => listing3 "xor32" a.name b.name d.name q
  | .not32 q a d => listing2 "not32" a.name d.name q
  | .shiftra32 q a b d => listing3 "shiftra32" a.name b.name d.name q
  | .shiftll32 q a b d => listing3 "shiftll32" a.name b.name d.name q
  | .shiftrl32 q a b d => listing3 "shiftrl32" a.name b.name d.name q
  | .and16 q a b d => listing3 "and16" a.name b.name d.name q
  | .or16 q a b d => listing3 "or16" a.name b.name d.name q
  | .xor16 q a b d => listing3 "xor16" a.name b.name d.name q
  | .not16 q a d => listing2 "not16" a.name d.name q
  | .shiftra16 q a b d => listing3 "shiftra16" a.name b.name d.name q
  | .shiftll16 q a b d => listing3 "shiftll16" a.name b.name d.name q
  | .shiftrl16 q a b d => listing3 "shiftrl16" a.name b.name d.name q

end Sys2Proof
end

