-- ==== Sys2Proof/Safety.lean ====
section
/-! DEFINITION. The terms claims use: final states and the invariant, what an instruction writes and leaves alone,
which registers each instruction touches, and the four word formats as the spec tabulates them. -/

namespace Sys2Proof

/-! ### Word formats, field by field -/

/-- The six fields every entry has, with the values that do not vary (30_encoding.md R49), and the bits `[28:24]` that
no entry names. -/
def CommonBits (ic : BitVec 5) (q : Quals) (w : Word) : Prop :=
  w.extractLsb' 30 2 = q.pr ∧ w.extractLsb' 29 1 = q.t ∧ w.extractLsb' 24 5 = 0#5 ∧
  w.extractLsb' 4 5 = ic ∧ w.extractLsb' 2 2 = 2#2 ∧ w.extractLsb' 1 1 = 1#1 ∧ w.extractLsb' 0 1 = q.p

/-- Format `L32`, the table of 30_encoding.md R50. -/
def FormatL32 (ic : BitVec 5) (q : Quals) (op0 op1 op2 : Nat) (w : Word) : Prop :=
  CommonBits ic q w ∧ w.extractLsb' 22 2 = 0#2 ∧ w.extractLsb' 21 1 = 0#1 ∧
  (w.extractLsb' 18 3).toNat = op2 ∧ w.extractLsb' 17 1 = 0#1 ∧ (w.extractLsb' 14 3).toNat = op1 ∧
  w.extractLsb' 13 1 = 0#1 ∧ (w.extractLsb' 10 3).toNat = op0 ∧ w.extractLsb' 9 1 = 0#1

/-- Format `S32`, the table of 30_encoding.md R51. -/
def FormatS32 (ic : BitVec 5) (q : Quals) (dirLeft arith : BitVec 1) (op0 op1 op2 : Nat) (w : Word) : Prop :=
  CommonBits ic q w ∧ w.extractLsb' 23 1 = dirLeft ∧ w.extractLsb' 22 1 = arith ∧ w.extractLsb' 21 1 = 0#1 ∧
  (w.extractLsb' 18 3).toNat = op2 ∧ w.extractLsb' 17 1 = 0#1 ∧ (w.extractLsb' 13 4).toNat = op1 ∧
  (w.extractLsb' 10 3).toNat = op0 ∧ w.extractLsb' 9 1 = 0#1

/-- Format `L16`, the table of 30_encoding.md R52. -/
def FormatL16 (ic : BitVec 5) (q : Quals) (op0 op1 op2 : Nat) (w : Word) : Prop :=
  CommonBits ic q w ∧ w.extractLsb' 22 2 = 0#2 ∧ w.extractLsb' 21 1 = 1#1 ∧
  (w.extractLsb' 17 4).toNat = op2 ∧ (w.extractLsb' 13 4).toNat = op1 ∧ (w.extractLsb' 9 4).toNat = op0

/-- Format `S16`, the table of 30_encoding.md R53. -/
def FormatS16 (ic : BitVec 5) (q : Quals) (dirLeft arith : BitVec 1) (op0 op1 op2 : Nat) (w : Word) : Prop :=
  CommonBits ic q w ∧ w.extractLsb' 23 1 = dirLeft ∧ w.extractLsb' 22 1 = arith ∧ w.extractLsb' 21 1 = 1#1 ∧
  (w.extractLsb' 17 4).toNat = op2 ∧ (w.extractLsb' 13 4).toNat = op1 ∧ (w.extractLsb' 9 4).toNat = op0

/-- A word with the `OP1` field of a NOT cleared, as the encoder writes it (30_encoding.md R61, R67). -/
def canonicalWord (i : Instr) (w : Word) : Word :=
  match i with
  | .not32 _ _ _ => w &&& 0xFFFE3FFF#32
  | .not16 _ _ _ => w &&& 0xFFFE1FFF#32
  | _ => w

/-! ### Which registers an instruction touches -/

/-- A register operand: a whole `$acc` register or a half register. -/
inductive Operand where
  | acc (r : Acc)
  | half (r : Half)
  deriving DecidableEq, Repr

/-- The column "reads" of 10_state.md R24. -/
def Instr.reads : Instr → List Operand
  | .and32 _ a b _ => [.acc a, .acc b]
  | .or32 _ a b _ => [.acc a, .acc b]
  | .xor32 _ a b _ => [.acc a, .acc b]
  | .not32 _ a _ => [.acc a]
  | .shiftra32 _ a b _ => [.acc a, .half b]
  | .shiftll32 _ a b _ => [.acc a, .half b]
  | .shiftrl32 _ a b _ => [.acc a, .half b]
  | .and16 _ a b _ => [.half a, .half b]
  | .or16 _ a b _ => [.half a, .half b]
  | .xor16 _ a b _ => [.half a, .half b]
  | .not16 _ a _ => [.half a]
  | .shiftra16 _ a b _ => [.half a, .half b]
  | .shiftll16 _ a b _ => [.half a, .half b]
  | .shiftrl16 _ a b _ => [.half a, .half b]

/-- The column "writes" of 10_state.md R24. -/
def Instr.dest : Instr → Operand
  | .and32 _ _ _ d => .acc d
  | .or32 _ _ _ d => .acc d
  | .xor32 _ _ _ d => .acc d
  | .not32 _ _ d => .acc d
  | .shiftra32 _ _ _ d => .acc d
  | .shiftll32 _ _ _ d => .acc d
  | .shiftrl32 _ _ _ d => .acc d
  | .and16 _ _ _ d => .half d
  | .or16 _ _ _ d => .half d
  | .xor16 _ _ _ d => .half d
  | .not16 _ _ d => .half d
  | .shiftra16 _ _ _ d => .half d
  | .shiftll16 _ _ _ d => .half d
  | .shiftrl16 _ _ _ d => .half d

/-- The instruction is one of the eight logic instructions (00_scope.md glossary, "operation class"). -/
def Instr.isLogic : Instr → Bool
  | .and32 _ _ _ _ => true
  | .or32 _ _ _ _ => true
  | .xor32 _ _ _ _ => true
  | .not32 _ _ _ => true
  | .shiftra32 _ _ _ _ => false
  | .shiftll32 _ _ _ _ => false
  | .shiftrl32 _ _ _ _ => false
  | .and16 _ _ _ _ => true
  | .or16 _ _ _ _ => true
  | .xor16 _ _ _ _ => true
  | .not16 _ _ _ => true
  | .shiftra16 _ _ _ _ => false
  | .shiftll16 _ _ _ _ => false
  | .shiftrl16 _ _ _ _ => false

/-- The operand's storage includes the half register: a `$acc` register is both of its halves (10_state.md R13). -/
def Operand.covers (o : Operand) (h : Half) : Prop :=
  match o with
  | .acc r => h.acc = r
  | .half r => h = r

namespace Machine

/-- Two states hold the same value in an operand. -/
def SameIn (o : Operand) (s t : State) : Prop :=
  match o with
  | .acc r => s.readAcc r = t.readAcc r
  | .half r => s.readHalf r = t.readHalf r

/-- From `s` to `t` the one change to the registers is that `$acc<d>` now holds `v`; `pc` has gone up by one and
nothing else has changed. -/
structure WritesAcc (s t : State) (d : Acc) (v : Word) : Prop where
  result  : t.readAcc d = v
  others  : ∀ r, r ≠ d → t.readAcc r = s.readAcc r
  pc      : t.pc = s.pc + 1
  refusal : t.refusal = s.refusal
  launch  : t.launch = s.launch

/-- From `s` to `t` the one change to the registers is that the half register `d` now holds `v`: the fifteen other
half registers, the other half of the same `$acc` among them, are unchanged; `pc` has gone up by one and nothing
else has changed. -/
structure WritesHalf (s t : State) (d : Half) (v : HalfWord) : Prop where
  result  : t.readHalf d = v
  others  : ∀ r, r ≠ d → t.readHalf r = s.readHalf r
  pc      : t.pc = s.pc + 1
  refusal : t.refusal = s.refusal
  launch  : t.launch = s.launch

/-- The run is over and nothing was refused (70_reset_and_hazards.md R123). -/
abbrev State.final (s : State) : Prop := s.pc = s.launch.program.length ∧ s.refusal = none

/-- A recorded refusal is the one that decoding the word at `pc` gives (60_exceptions.md R102, R110). -/
def State.refusalSound (s : State) : Prop :=
  ∀ r, s.refusal = some r →
    ∃ w reason, s.fetch = some w ∧ decode s.launch.config w = .error reason ∧ r = .undecodable reason

/-- The invariant of a run: the five `IC` values are distinct (30_encoding.md R58), `pc` is bounded by the length of
the program (10_state.md R16), and a recorded refusal is sound. -/
structure State.Inv (s : State) : Prop where
  configWf     : s.launch.config.wf
  pcBounded    : s.pc ≤ s.launch.program.length
  refusalSound : s.refusalSound

/-- Every half register holds `0x0000` or `0xFFFF` (70_reset_and_hazards.md R122). -/
def State.halvesExtreme (s : State) : Prop := ∀ r, s.readHalf r = 0x0000#16 ∨ s.readHalf r = 0xFFFF#16

/-- The word at index `k` of the program decodes. -/
def State.decodableAt (s : State) (k : Nat) : Prop :=
  ∃ w i, s.launch.program[k]? = some w ∧ decode s.launch.config w = .ok i

end Machine

end Sys2Proof
end

