-- ==== Sys2Proof/Certificates/Slice0/Obligations.lean ====
section
/-! DEFINITION. The statements for the provers. Each `def Obligations.<Name> : Prop` says one thing the spec's rules
say of an instruction or of the machine; its docstring names the rule, or the model's own choice it rests on. -/

open Sys2Proof Sys2Proof.Machine

/-- 40_logic32.md R81: the whole rule, effect and encoding. Field positions and `OPSize16` follow 90_conflicts.md (log entry 14), the
`IC` value is the configuration's (log entry 2), and `pc` is the index of log entry 19. -/
def Obligations.And32WritesBitwiseAnd : Prop :=
  (∀ (q : Quals) (a b d : Acc) (s : State), ∃ t, exec (.and32 q a b d) s = .next t ∧
    WritesAcc s t d (s.readAcc a &&& s.readAcc b)) ∧
  (∀ (c : Config) (q : Quals) (a b d : Acc) (w : Word), c.wf → c.admits q = true →
    FormatL32 c.icAnd q a.number b.number d.number w → decode c w = .ok (.and32 q a b d))

/-- 40_logic32.md R82: the whole rule, effect and encoding. Field positions and `OPSize16` follow 90_conflicts.md (log entry 14), the
`IC` value is the configuration's (log entry 2), and `pc` is the index of log entry 19. -/
def Obligations.Or32WritesBitwiseOr : Prop :=
  (∀ (q : Quals) (a b d : Acc) (s : State), ∃ t, exec (.or32 q a b d) s = .next t ∧
    WritesAcc s t d (s.readAcc a ||| s.readAcc b)) ∧
  (∀ (c : Config) (q : Quals) (a b d : Acc) (w : Word), c.wf → c.admits q = true →
    FormatL32 c.icOr q a.number b.number d.number w → decode c w = .ok (.or32 q a b d))

/-- 40_logic32.md R83: the whole rule, effect and encoding. Field positions and `OPSize16` follow 90_conflicts.md (log entry 14), the
`IC` value is the configuration's (log entry 2), and `pc` is the index of log entry 19. -/
def Obligations.Xor32WritesBitwiseXor : Prop :=
  (∀ (q : Quals) (a b d : Acc) (s : State), ∃ t, exec (.xor32 q a b d) s = .next t ∧
    WritesAcc s t d (s.readAcc a ^^^ s.readAcc b)) ∧
  (∀ (c : Config) (q : Quals) (a b d : Acc) (w : Word), c.wf → c.admits q = true →
    FormatL32 c.icXor q a.number b.number d.number w → decode c w = .ok (.xor32 q a b d))

/-- 40_logic32.md R84: the whole rule, effect and encoding. Field positions and `OPSize16` follow 90_conflicts.md (log entry 14), the
`IC` value is the configuration's (log entry 2), and `pc` is the index of log entry 19. That any `OP1` is accepted rests on log entry
15. -/
def Obligations.Not32WritesComplement : Prop :=
  (∀ (q : Quals) (a d : Acc) (s : State), ∃ t, exec (.not32 q a d) s = .next t ∧
    WritesAcc s t d (~~~(s.readAcc a))) ∧
  (∀ (c : Config) (q : Quals) (a d : Acc) (op1 : Nat) (w : Word), c.wf → c.admits q = true →
    FormatL32 c.icNot q a.number op1 d.number w → decode c w = .ok (.not32 q a d))

/-- 41_shift32.md R86: the whole rule, effect and encoding. Field positions and `OPSize16` follow 90_conflicts.md (log entry 14), the
`IC` value is the configuration's (log entry 2), and `pc` is the index of log entry 19. What a half register is rests on log entry
7. The out-of-range result is the free value of log entry 1. -/
def Obligations.Shiftra32WritesShiftOrFreeValue : Prop :=
  (∀ (q : Quals) (a : Acc) (b : Half) (d : Acc) (s : State), ∃ t, exec (.shiftra32 q a b d) s = .next t ∧
    WritesAcc s t d
      (if (s.readHalf b).toNat < 32 then BitVec.ofInt 32 ((s.readAcc a).toInt / (2 ^ (s.readHalf b).toNat : Nat))
       else Config.shiftOor .ra 32 (s.readAcc a) (s.readHalf b).toNat)) ∧
  (∀ (c : Config) (q : Quals) (a : Acc) (b : Half) (d : Acc) (w : Word), c.wf → c.admits q = true →
    FormatS32 c.icShift q 0#1 1#1 a.number b.index d.number w → decode c w = .ok (.shiftra32 q a b d))

/-- 41_shift32.md R87: the whole rule, effect and encoding. Field positions and `OPSize16` follow 90_conflicts.md (log entry 14), the
`IC` value is the configuration's (log entry 2), and `pc` is the index of log entry 19. What a half register is rests on log entry
7. The out-of-range result is the free value of log entry 1. -/
def Obligations.Shiftll32WritesShiftOrFreeValue : Prop :=
  (∀ (q : Quals) (a : Acc) (b : Half) (d : Acc) (s : State), ∃ t, exec (.shiftll32 q a b d) s = .next t ∧
    WritesAcc s t d
      (if (s.readHalf b).toNat < 32 then BitVec.ofNat 32 ((s.readAcc a).toNat * 2 ^ (s.readHalf b).toNat)
       else Config.shiftOor .ll 32 (s.readAcc a) (s.readHalf b).toNat)) ∧
  (∀ (c : Config) (q : Quals) (a : Acc) (b : Half) (d : Acc) (w : Word), c.wf → c.admits q = true →
    FormatS32 c.icShift q 1#1 0#1 a.number b.index d.number w → decode c w = .ok (.shiftll32 q a b d))

/-- 41_shift32.md R88: the whole rule, effect and encoding. Field positions and `OPSize16` follow 90_conflicts.md (log entry 14), the
`IC` value is the configuration's (log entry 2), and `pc` is the index of log entry 19. What a half register is rests on log entry
7. The out-of-range result is the free value of log entry 1. -/
def Obligations.Shiftrl32WritesShiftOrFreeValue : Prop :=
  (∀ (q : Quals) (a : Acc) (b : Half) (d : Acc) (s : State), ∃ t, exec (.shiftrl32 q a b d) s = .next t ∧
    WritesAcc s t d
      (if (s.readHalf b).toNat < 32 then BitVec.ofNat 32 ((s.readAcc a).toNat / 2 ^ (s.readHalf b).toNat)
       else Config.shiftOor .rl 32 (s.readAcc a) (s.readHalf b).toNat)) ∧
  (∀ (c : Config) (q : Quals) (a : Acc) (b : Half) (d : Acc) (w : Word), c.wf → c.admits q = true →
    FormatS32 c.icShift q 0#1 0#1 a.number b.index d.number w → decode c w = .ok (.shiftrl32 q a b d))

/-- 42_logic16.md R91: the whole rule, effect and encoding. Field positions and `OPSize16` follow 90_conflicts.md (log entry 14), the
`IC` value is the configuration's (log entry 2), and `pc` is the index of log entry 19. What a half register is rests on log entry
7. -/
def Obligations.And16WritesBitwiseAnd : Prop :=
  (∀ (q : Quals) (a b d : Half) (s : State), ∃ t, exec (.and16 q a b d) s = .next t ∧
    WritesHalf s t d (s.readHalf a &&& s.readHalf b)) ∧
  (∀ (c : Config) (q : Quals) (a b d : Half) (w : Word), c.wf → c.admits q = true →
    FormatL16 c.icAnd q a.index b.index d.index w → decode c w = .ok (.and16 q a b d))

/-- 42_logic16.md R92: the whole rule, effect and encoding. Field positions and `OPSize16` follow 90_conflicts.md (log entry 14), the
`IC` value is the configuration's (log entry 2), and `pc` is the index of log entry 19. What a half register is rests on log entry
7. -/
def Obligations.Or16WritesBitwiseOr : Prop :=
  (∀ (q : Quals) (a b d : Half) (s : State), ∃ t, exec (.or16 q a b d) s = .next t ∧
    WritesHalf s t d (s.readHalf a ||| s.readHalf b)) ∧
  (∀ (c : Config) (q : Quals) (a b d : Half) (w : Word), c.wf → c.admits q = true →
    FormatL16 c.icOr q a.index b.index d.index w → decode c w = .ok (.or16 q a b d))

/-- 42_logic16.md R93: the whole rule, effect and encoding. Field positions and `OPSize16` follow 90_conflicts.md (log entry 14), the
`IC` value is the configuration's (log entry 2), and `pc` is the index of log entry 19. What a half register is rests on log entry
7. -/
def Obligations.Xor16WritesBitwiseXor : Prop :=
  (∀ (q : Quals) (a b d : Half) (s : State), ∃ t, exec (.xor16 q a b d) s = .next t ∧
    WritesHalf s t d (s.readHalf a ^^^ s.readHalf b)) ∧
  (∀ (c : Config) (q : Quals) (a b d : Half) (w : Word), c.wf → c.admits q = true →
    FormatL16 c.icXor q a.index b.index d.index w → decode c w = .ok (.xor16 q a b d))

/-- 42_logic16.md R94: the whole rule, effect and encoding. Field positions and `OPSize16` follow 90_conflicts.md (log entry 14), the
`IC` value is the configuration's (log entry 2), and `pc` is the index of log entry 19. What a half register is rests on log entry
7. That any `OP1` is accepted rests on log entry
15. -/
def Obligations.Not16WritesComplement : Prop :=
  (∀ (q : Quals) (a d : Half) (s : State), ∃ t, exec (.not16 q a d) s = .next t ∧
    WritesHalf s t d (~~~(s.readHalf a))) ∧
  (∀ (c : Config) (q : Quals) (a d : Half) (op1 : Nat) (w : Word), c.wf → c.admits q = true →
    FormatL16 c.icNot q a.index op1 d.index w → decode c w = .ok (.not16 q a d))

/-- 43_shift16.md R96: the whole rule, effect and encoding. Field positions and `OPSize16` follow 90_conflicts.md (log entry 14), the
`IC` value is the configuration's (log entry 2), and `pc` is the index of log entry 19. What a half register is rests on log entry
7. The out-of-range result is the free value of log entry 1. -/
def Obligations.Shiftra16WritesShiftOrFreeValue : Prop :=
  (∀ (q : Quals) (a b d : Half) (s : State), ∃ t, exec (.shiftra16 q a b d) s = .next t ∧
    WritesHalf s t d
      (if (s.readHalf b).toNat < 16 then BitVec.ofInt 16 ((s.readHalf a).toInt / (2 ^ (s.readHalf b).toNat : Nat))
       else Config.shiftOor .ra 16 (s.readHalf a) (s.readHalf b).toNat)) ∧
  (∀ (c : Config) (q : Quals) (a b d : Half) (w : Word), c.wf → c.admits q = true →
    FormatS16 c.icShift q 0#1 1#1 a.index b.index d.index w → decode c w = .ok (.shiftra16 q a b d))

/-- 43_shift16.md R97: the whole rule, effect and encoding. Field positions and `OPSize16` follow 90_conflicts.md (log entry 14), the
`IC` value is the configuration's (log entry 2), and `pc` is the index of log entry 19. What a half register is rests on log entry
7. The out-of-range result is the free value of log entry 1. -/
def Obligations.Shiftll16WritesShiftOrFreeValue : Prop :=
  (∀ (q : Quals) (a b d : Half) (s : State), ∃ t, exec (.shiftll16 q a b d) s = .next t ∧
    WritesHalf s t d
      (if (s.readHalf b).toNat < 16 then BitVec.ofNat 16 ((s.readHalf a).toNat * 2 ^ (s.readHalf b).toNat)
       else Config.shiftOor .ll 16 (s.readHalf a) (s.readHalf b).toNat)) ∧
  (∀ (c : Config) (q : Quals) (a b d : Half) (w : Word), c.wf → c.admits q = true →
    FormatS16 c.icShift q 1#1 0#1 a.index b.index d.index w → decode c w = .ok (.shiftll16 q a b d))

/-- 43_shift16.md R98: the whole rule, effect and encoding. Field positions and `OPSize16` follow 90_conflicts.md (log entry 14), the
`IC` value is the configuration's (log entry 2), and `pc` is the index of log entry 19. What a half register is rests on log entry
7. The out-of-range result is the free value of log entry 1. -/
def Obligations.Shiftrl16WritesShiftOrFreeValue : Prop :=
  (∀ (q : Quals) (a b d : Half) (s : State), ∃ t, exec (.shiftrl16 q a b d) s = .next t ∧
    WritesHalf s t d
      (if (s.readHalf b).toNat < 16 then BitVec.ofNat 16 ((s.readHalf a).toNat / 2 ^ (s.readHalf b).toNat)
       else Config.shiftOor .rl 16 (s.readHalf a) (s.readHalf b).toNat)) ∧
  (∀ (c : Config) (q : Quals) (a b d : Half) (w : Word), c.wf → c.admits q = true →
    FormatS16 c.icShift q 0#1 0#1 a.index b.index d.index w → decode c w = .ok (.shiftrl16 q a b d))

/-- 41_shift32.md section "Family rules", the bit-by-bit form, at both widths. The meaning of the three names is from
general knowledge (93_implementation_defined.md G2; log entry 18). -/
def Obligations.InRangeShiftMovesBits : Prop :=
  ∀ (W : Nat) (x : BitVec W) (n k : Nat), n < W → k < W →
    ((shiftResult .ll x n).getLsbD k = (decide (n ≤ k) && x.getLsbD (k - n))) ∧
    ((shiftResult .rl x n).getLsbD k = (decide (k + n < W) && x.getLsbD (k + n))) ∧
    ((shiftResult .ra x n).getLsbD k = if k + n < W then x.getLsbD (k + n) else x.getLsbD (W - 1))

/-- 43_shift16.md, the note on the in-range bound: it depends on the operand width. All six shifts, of each kind at both
widths, by one amount register. Out of range the result is the free value (log entry 1). -/
def Obligations.AmountBoundIsTheDataWidth : Prop :=
  ∀ (q : Quals) (a b d : Half) (a' d' : Acc) (s : State),
    16 ≤ (s.readHalf b).toNat → (s.readHalf b).toNat < 32 →
    (∃ t, exec (.shiftra16 q a b d) s = .next t ∧
      t.readHalf d = Config.shiftOor .ra 16 (s.readHalf a) (s.readHalf b).toNat) ∧
    (∃ t, exec (.shiftll16 q a b d) s = .next t ∧
      t.readHalf d = Config.shiftOor .ll 16 (s.readHalf a) (s.readHalf b).toNat) ∧
    (∃ t, exec (.shiftrl16 q a b d) s = .next t ∧
      t.readHalf d = Config.shiftOor .rl 16 (s.readHalf a) (s.readHalf b).toNat) ∧
    (∃ t, exec (.shiftra32 q a' b d') s = .next t ∧
      t.readAcc d' = (s.readAcc a').sshiftRight (s.readHalf b).toNat) ∧
    (∃ t, exec (.shiftll32 q a' b d') s = .next t ∧ t.readAcc d' = s.readAcc a' <<< (s.readHalf b).toNat) ∧
    (∃ t, exec (.shiftrl32 q a' b d') s = .next t ∧ t.readAcc d' = s.readAcc a' >>> (s.readHalf b).toNat)

/-- 10_state.md R24: the table of what each instruction reads and writes, `Instr.reads` and `Instr.dest`. -/
def Obligations.InstructionsTouchOnlyTheirOperands : Prop :=
  (∀ (i : Instr) (s t : State), exec i s = .next t → ∀ h : Half, ¬ i.dest.covers h → t.readHalf h = s.readHalf h) ∧
  (∀ (i : Instr) (s s' t t' : State), (∀ o ∈ i.reads, SameIn o s s') →
    exec i s = .next t → exec i s' = .next t' → SameIn i.dest t t') ∧
  (∀ (i : Instr) (s t : State), exec i s = .next t →
    t.pc = s.pc + 1 ∧ t.refusal = s.refusal ∧ t.launch = s.launch)

/-- 60_exceptions.md section 1: the fourteen instructions are total. That no exception exists is the spec's decision D15
(log entry 12). -/
def Obligations.EveryInstructionCompletes : Prop :=
  ∀ (i : Instr) (s : State), ∃ t, exec i s = .next t ∧ t.pc = s.pc + 1 ∧ t.refusal = s.refusal ∧ t.launch = s.launch

/-- 30_encoding.md section 5: PR, T and P are accepted, recorded and ignored. The spec's decision D6 (log entry 6). -/
def Obligations.QualifiersDoNotChangeTheOperation : Prop :=
  (∀ (i : Instr) (q : Quals) (s : State), exec (i.withQuals q) s = exec i s) ∧
  (∀ (c : Config) (w w' : Word) (i : Instr), (∀ q, c.admits q = true) →
    w'.extractLsb' 1 28 = w.extractLsb' 1 28 → decode c w = .ok i → decode c w' = .ok (i.withQuals (qualsOf w')))

/-- 30_encoding.md section 5: the OP1 field of a NOT is accepted and not read. The spec's decision D8 (log entry 15). -/
def Obligations.NotIgnoresItsOp1Field : Prop :=
  ∀ (c : Config) (w w' : Word) (i : Instr), decode c w = .ok i → canonicalWord i w' = canonicalWord i w →
    decode c w' = .ok i

/-- 30_encoding.md section 6, the round trip of the decoder and the encoder (derived in the spec), for every instruction,
every operand value and every configuration with distinct IC values. -/
def Obligations.DecodeOfEncodeIsTheInstruction : Prop :=
  ∀ (c : Config) (i : Instr), c.wf → i.wf c → decode c (encode c i) = .ok i

/-- 30_encoding.md section 6, the other direction: a decoded word is rebuilt bit for bit, but for the OP1 field of a NOT. -/
def Obligations.EncodeOfDecodeIsTheCanonicalWord : Prop :=
  ∀ (c : Config) (w : Word) (i : Instr), decode c w = .ok i → encode c i = canonicalWord i w ∧ i.wf c

/-- 30_encoding.md section 7 and opcode_table.json: the fourteen mask and match pairs, under the default configuration
(log entry 2). The masks include the unlisted bits (decision D7, log entry 11). -/
def Obligations.DecoderAgreesWithTheOpcodeTable : Prop :=
  ∀ w : Word,
  ((∃ q a b d, decode Config.default w = .ok (.and32 q a b d)) ↔ w &&& 0x1FE223FE#32 = 0x0000000A#32) ∧
  ((∃ q a b d, decode Config.default w = .ok (.or32 q a b d)) ↔ w &&& 0x1FE223FE#32 = 0x0000001A#32) ∧
  ((∃ q a b d, decode Config.default w = .ok (.xor32 q a b d)) ↔ w &&& 0x1FE223FE#32 = 0x0000002A#32) ∧
  ((∃ q a d, decode Config.default w = .ok (.not32 q a d)) ↔ w &&& 0x1FE223FE#32 = 0x0000003A#32) ∧
  ((∃ q a b d, decode Config.default w = .ok (.shiftra32 q a b d)) ↔ w &&& 0x1FE203FE#32 = 0x0040004A#32) ∧
  ((∃ q a b d, decode Config.default w = .ok (.shiftll32 q a b d)) ↔ w &&& 0x1FE203FE#32 = 0x0080004A#32) ∧
  ((∃ q a b d, decode Config.default w = .ok (.shiftrl32 q a b d)) ↔ w &&& 0x1FE203FE#32 = 0x0000004A#32) ∧
  ((∃ q a b d, decode Config.default w = .ok (.and16 q a b d)) ↔ w &&& 0x1FE001FE#32 = 0x0020000A#32) ∧
  ((∃ q a b d, decode Config.default w = .ok (.or16 q a b d)) ↔ w &&& 0x1FE001FE#32 = 0x0020001A#32) ∧
  ((∃ q a b d, decode Config.default w = .ok (.xor16 q a b d)) ↔ w &&& 0x1FE001FE#32 = 0x0020002A#32) ∧
  ((∃ q a d, decode Config.default w = .ok (.not16 q a d)) ↔ w &&& 0x1FE001FE#32 = 0x0020003A#32) ∧
  ((∃ q a b d, decode Config.default w = .ok (.shiftra16 q a b d)) ↔ w &&& 0x1FE001FE#32 = 0x0060004A#32) ∧
  ((∃ q a b d, decode Config.default w = .ok (.shiftll16 q a b d)) ↔ w &&& 0x1FE001FE#32 = 0x00A0004A#32) ∧
  ((∃ q a b d, decode Config.default w = .ok (.shiftrl16 q a b d)) ↔ w &&& 0x1FE001FE#32 = 0x0020004A#32)

/-- 95_test_vectors.md section 2.1: the number of words the decoder accepts, under the default configuration (log entry 2). -/
def Obligations.AcceptedWordsAreCounted : Prop :=
  Nat.card (Subtype fun w : Word => ∃ i, decode Config.default w = .ok i) = 540672

/-- 30_encoding.md section 6, on the five IC parameters: they must be pairwise distinct, otherwise two instructions have
the same word. The classes are the spec's decision D5 (log entry 2). -/
def Obligations.DistinctIcValuesAreNeeded : Prop :=
  ∀ c : Config, (∃ q, c.admits q = true) →
    (c.wf ↔ ∀ i j : Instr, i.wf c → j.wf c → encode c i = encode c j → i = j)

/-- 30_encoding.md sections 6 and 8, 60_exceptions.md section 3: which reason each refused word gets, test by test. The tests
are the spec's decisions D7 and D14 (log entry 11). The qualifier test is optional in the spec, which does not place it
among the tests: that it stands last, after every other, is the model's own choice (DESIGN CHOICE, log entry 5). -/
def Obligations.RefusalReasonsInOrder : Prop :=
  ∀ (c : Config) (w : Word), c.wf →
    let logicIc := [c.icAnd, c.icOr, c.icXor, c.icNot]
    let ic := w.extractLsb' 4 5
    let unlisted32 := w.extractLsb' 21 1 = 0#1 ∧ (w.extractLsb' 17 1 = 1#1 ∨ w.extractLsb' 9 1 = 1#1)
    (w.extractLsb' 1 1 = 0#1 → decode c w = .error .notA32BitWord) ∧
    (w.extractLsb' 1 1 = 1#1 → w.extractLsb' 2 2 ≠ 2#2 → decode c w = .error .otherFunctionalUnit) ∧
    (w.extractLsb' 1 1 = 1#1 → w.extractLsb' 2 2 = 2#2 →
      (ic ∉ logicIc → ic ≠ c.icShift → decode c w = .error .unassignedIC) ∧
      (ic ∈ logicIc ∨ ic = c.icShift → w.extractLsb' 24 5 ≠ 0#5 → decode c w = .error .unlistedBitsNonzero) ∧
      (ic ∈ logicIc → w.extractLsb' 24 5 = 0#5 →
        (w.extractLsb' 22 2 ≠ 0#2 ∨ unlisted32 ∨ (w.extractLsb' 21 1 = 0#1 ∧ w.extractLsb' 13 1 = 1#1) →
          decode c w = .error .unlistedBitsNonzero) ∧
        (¬ (w.extractLsb' 22 2 ≠ 0#2 ∨ unlisted32 ∨ (w.extractLsb' 21 1 = 0#1 ∧ w.extractLsb' 13 1 = 1#1)) →
          (c.admits (qualsOf w) = true → ∃ i, decode c w = .ok i ∧ i.quals = qualsOf w) ∧
          (c.admits (qualsOf w) = false → decode c w = .error .qualifierNotAdmitted))) ∧
      (ic = c.icShift → w.extractLsb' 24 5 = 0#5 →
        (w.extractLsb' 22 2 = 3#2 → decode c w = .error .reservedShiftKind) ∧
        (w.extractLsb' 22 2 ≠ 3#2 → unlisted32 → decode c w = .error .unlistedBitsNonzero) ∧
        (w.extractLsb' 22 2 ≠ 3#2 → ¬ unlisted32 →
          (c.admits (qualsOf w) = true → ∃ i, decode c w = .ok i ∧ i.quals = qualsOf w) ∧
          (c.admits (qualsOf w) = false → decode c w = .error .qualifierNotAdmitted))))

/-- 30_encoding.md section 6, the table of ShiftDirLeft and ShiftArith; that the fourth combination is refused is the
spec's decision D9 (log entry 11). -/
def Obligations.ShiftKindFollowsDirectionAndArith : Prop :=
  ∀ (c : Config) (w : Word) (i : Instr), c.wf → w.extractLsb' 4 5 = c.icShift → decode c w = .ok i →
    (w.extractLsb' 23 1 = 0#1 → w.extractLsb' 22 1 = 1#1 →
      (∃ q a b d, i = .shiftra32 q a b d) ∨ (∃ q a b d, i = .shiftra16 q a b d)) ∧
    (w.extractLsb' 23 1 = 1#1 → w.extractLsb' 22 1 = 0#1 →
      (∃ q a b d, i = .shiftll32 q a b d) ∨ (∃ q a b d, i = .shiftll16 q a b d)) ∧
    (w.extractLsb' 23 1 = 0#1 → w.extractLsb' 22 1 = 0#1 →
      (∃ q a b d, i = .shiftrl32 q a b d) ∨ (∃ q a b d, i = .shiftrl16 q a b d)) ∧
    ¬ (w.extractLsb' 23 1 = 1#1 ∧ w.extractLsb' 22 1 = 1#1)

/-- 30_encoding.md section 6, on OPSize16, whose value in ten entries is the resolution of 90_conflicts.md C3 (log entry 14). -/
def Obligations.OperandSizeFollowsOpSize16 : Prop :=
  ∀ (c : Config) (w : Word) (i : Instr), decode c w = .ok i →
    ((w.extractLsb' 21 1 = 1#1 ↔ ∃ h, i.dest = .half h) ∧ (w.extractLsb' 21 1 = 0#1 ↔ ∃ r, i.dest = .acc r))

/-- Words written out in the spec, one for each instruction, under the default configuration (log entry 2). -/
def Obligations.SpecWordsDecode : Prop :=
  decode Config.default 0x2008400A#32 = .ok (.and32 ⟨0, 1, 0⟩ .acc0 .acc1 .acc2) ∧
  decode Config.default 0x20150C1A#32 = .ok (.or32 ⟨0, 1, 0⟩ .acc3 .acc4 .acc5) ∧
  decode Config.default 0x201DDC2A#32 = .ok (.xor32 ⟨0, 1, 0⟩ .acc7 .acc7 .acc7) ∧
  decode Config.default 0x2004183A#32 = .ok (.not32 ⟨0, 1, 0⟩ .acc6 .acc1) ∧
  decode Config.default 0x2048404A#32 = .ok (.shiftra32 ⟨0, 1, 0⟩ .acc0 ⟨.acc1, .l⟩ .acc2) ∧
  decode Config.default 0x208D2C4A#32 = .ok (.shiftll32 ⟨0, 1, 0⟩ .acc3 ⟨.acc4, .h⟩ .acc3) ∧
  decode Config.default 0x20005C4A#32 = .ok (.shiftrl32 ⟨0, 1, 0⟩ .acc7 ⟨.acc1, .l⟩ .acc0) ∧
  decode Config.default 0x2024200A#32 = .ok (.and16 ⟨0, 1, 0⟩ ⟨.acc0, .l⟩ ⟨.acc0, .h⟩ ⟨.acc1, .l⟩) ∧
  decode Config.default 0x202ACA1A#32 = .ok (.or16 ⟨0, 1, 0⟩ ⟨.acc2, .h⟩ ⟨.acc3, .l⟩ ⟨.acc2, .h⟩) ∧
  decode Config.default 0x203FFE2A#32 = .ok (.xor16 ⟨0, 1, 0⟩ ⟨.acc7, .h⟩ ⟨.acc7, .h⟩ ⟨.acc7, .h⟩) ∧
  decode Config.default 0x2036143A#32 = .ok (.not16 ⟨0, 1, 0⟩ ⟨.acc5, .l⟩ ⟨.acc5, .h⟩) ∧
  decode Config.default 0x2060424A#32 = .ok (.shiftra16 ⟨0, 1, 0⟩ ⟨.acc0, .h⟩ ⟨.acc1, .l⟩ ⟨.acc0, .l⟩) ∧
  decode Config.default 0x20B9B84A#32 = .ok (.shiftll16 ⟨0, 1, 0⟩ ⟨.acc6, .l⟩ ⟨.acc6, .h⟩ ⟨.acc6, .l⟩) ∧
  decode Config.default 0x202E924A#32 = .ok (.shiftrl16 ⟨0, 1, 0⟩ ⟨.acc4, .h⟩ ⟨.acc2, .l⟩ ⟨.acc3, .h⟩)

/-- 30_encoding.md R48: the derived signal, and that no rule reads it. -/
def Obligations.True32BitSignalIsSAndT : Prop :=
  (∀ w : Word, true32BitInsn w = (w.getLsbD 1 && w.getLsbD 29)) ∧
  (∀ (c : Config) (w : Word) (i : Instr), decode c w = .ok i → (true32BitInsn w = true ↔ i.quals.t = 1#1)) ∧
  (∀ (c : Config) (i : Instr), true32BitInsn (encode c (i.withQuals { i.quals with t := 1#1 })) = true ∧
    true32BitInsn (encode c (i.withQuals { i.quals with t := 0#1 })) = false) ∧
  (∀ (i : Instr) (t : BitVec 1) (s : State), exec (i.withQuals { i.quals with t := t }) s = exec i s)

/-- 30_encoding.md R54: a 3-bit field value n names $acc<n>, read or written as 32 bits. -/
def Obligations.AccFieldNamesTheRegisterOfItsValue : Prop :=
  (∀ f : BitVec 3, (accOfCode f).number = f.toNat) ∧ (∀ r : Acc, accOfCode r.code = r) ∧
  (∀ r r' : Acc, r.number = r'.number → r = r') ∧
  (∀ (s : State) (f : BitVec 3) (v : Word), (s.writeAcc (accOfCode f) v).readAcc (accOfCode f) = v) ∧
  (∀ (s : State) (f g : BitVec 3) (v : Word), f ≠ g →
    (s.writeAcc (accOfCode f) v).readAcc (accOfCode g) = s.readAcc (accOfCode g))

/-- 10_state.md section 1, the half-register index: the spec's decision D3 (log entry 7). -/
def Obligations.HalfFieldOrderIsTwoNPlusH : Prop :=
  (∀ f : BitVec 4, (halfOfCode f).index = f.toNat) ∧ (∀ r : Half, halfOfCode r.code = r) ∧
  (∀ f : BitVec 4, (halfOfCode f).acc.number = f.toNat / 2 ∧ ((halfOfCode f).side = .h ↔ f.toNat % 2 = 1))

/-- 10_state.md section 1, aliasing: the spec's decision D2 (log entry 7). -/
def Obligations.HalvesAreTheRegisterSplit : Prop :=
  ∀ (s : State) (n : Acc),
    s.readHalf ⟨n, .l⟩ = (s.readAcc n).extractLsb' 0 16 ∧ s.readHalf ⟨n, .h⟩ = (s.readAcc n).extractLsb' 16 16 ∧
    s.readAcc n = s.readHalf ⟨n, .h⟩ ++ s.readHalf ⟨n, .l⟩ ∧
    ∀ v : Word, (s.writeAcc n v).readHalf ⟨n, .l⟩ = v.extractLsb' 0 16 ∧
      (s.writeAcc n v).readHalf ⟨n, .h⟩ = v.extractLsb' 16 16

/-- 10_state.md section 1, write of a half register: the spec's decision D4 (log entry 7). -/
def Obligations.HalfWriteKeepsEverythingElse : Prop :=
  ∀ (s : State) (n : Acc) (v : HalfWord),
    (s.writeHalf ⟨n, .l⟩ v).readAcc n = (s.readAcc n).extractLsb' 16 16 ++ v ∧
    (s.writeHalf ⟨n, .h⟩ v).readAcc n = v ++ (s.readAcc n).extractLsb' 0 16 ∧
    ∀ side : Side, (s.writeHalf ⟨n, side⟩ v).readHalf ⟨n, side⟩ = v ∧
      (∀ r : Half, r ≠ ⟨n, side⟩ → (s.writeHalf ⟨n, side⟩ v).readHalf r = s.readHalf r) ∧
      (∀ m : Acc, m ≠ n → (s.writeHalf ⟨n, side⟩ v).readAcc m = s.readAcc m)

/-- 00_scope.md section 7 and 60_exceptions.md section 1: a step fetches, decodes and executes. The spec's decision D20
(log entry 12). -/
def Obligations.StepRunsTheDecodedInstruction : Prop :=
  ∀ (s : State) (w : Word) (i : Instr), s.refusal = none → s.fetch = some w → decode s.launch.config w = .ok i →
    step s = exec i s ∧ ∃ t, step s = .next t ∧ t.pc = s.pc + 1

/-- 60_exceptions.md R110: a refused step changes nothing, an executed one is atomic. -/
def Obligations.RefusedStepChangesNothing : Prop :=
  (∀ (s : State) (w : Word) (reason : DecodeReason), s.refusal = none → s.fetch = some w →
    decode s.launch.config w = .error reason →
    step s = .refused (.undecodable reason) ∧ (stepRecorded s).acc = s.acc ∧ (stepRecorded s).pc = s.pc ∧
      (stepRecorded s).launch = s.launch) ∧
  (∀ (s : State) (w : Word) (i : Instr), s.refusal = none → s.fetch = some w → decode s.launch.config w = .ok i →
    exec i s = .next (stepRecorded s))

/-- 60_exceptions.md section 1, the mark of a refusal: the spec's decision D14 (log entry 10). -/
def Obligations.RecordedRefusalStays : Prop :=
  (∀ (s : State) (r : Refusal) (k : Nat), s.refusal = some r →
    runRecorded k s = s ∧ step s = .refused r ∧ ¬ s.final) ∧
  (∀ (s : State) (r : Refusal) (k : Nat), step s = .refused r →
    (stepRecorded s).refusal = some r ∧ runRecorded k (stepRecorded s) = stepRecorded s)

/-- 60_exceptions.md section 1: a step is executed or refused, never a fault. The spec's decisions D14 and D15. -/
def Obligations.StepInsideTheProgramHasTwoOutcomes : Prop :=
  ∀ s : State, s.refusal = none → s.pc < s.launch.program.length →
    (∃ t, step s = .next t ∧ t.refusal = none ∧ t.pc = s.pc + 1) ∨
    (∃ reason, step s = .refused (.undecodable reason))

/-- 70_reset_and_hazards.md section 2, the end of a run (the spec's decision D17). That step answers the fault `runOver` there
is the model's choice (log entry 9). -/
def Obligations.RunIsOverAtTheEndOfTheProgram : Prop :=
  ∀ s : State, s.refusal = none → (step s = .fault .runOver ↔ s.launch.program.length ≤ s.pc) ∧
    (s.launch.program.length ≤ s.pc → ∀ k, runRecorded k s = s)

/-- 60_exceptions.md R107: no control transfer; every program is a straight line. -/
def Obligations.EveryRunEndsOrIsRefused : Prop :=
  (∀ (i : Instr) (s t : State) (n : Nat), exec i s = .next t →
    t.pc = s.pc + 1 ∧ exec i { s with pc := n } = .next { t with pc := n + 1 }) ∧
  (∀ (p : Launch) (regs : AccFile),
    ((∀ k, k < p.program.length → (State.launched p regs).decodableAt k) →
      ∃ t, core.run p.program.length (State.launched p regs) = .next t ∧ t.final ∧ t.launch = p) ∧
    (∀ j, j < p.program.length → (∀ k, k < j → (State.launched p regs).decodableAt k) →
      ¬ (State.launched p regs).decodableAt j →
      ∃ t reason, core.run j (State.launched p regs) = .next t ∧ t.pc = j ∧
        step t = .refused (.undecodable reason) ∧
        core.run (j + 1) (State.launched p regs) = .refused (.undecodable reason)))

/-- The invariant of a run: distinct IC values (30_encoding.md section 6), pc bounded by the length of the program (10_state.md
section 2) and a sound recorded refusal (60_exceptions.md section 1). -/
def Obligations.StepKeepsInvariant : Prop :=
  ∀ s t : State, s.Inv → step s = .next t → t.Inv ∧ t.refusal = none ∧ t.pc ≤ s.launch.program.length

/-- The same for the step that records a refusal (log entry 10): the recorded reason is always the one that decoding the
word at pc gives. -/
def Obligations.RecordedStepKeepsInvariant : Prop :=
  ∀ (s : State) (k : Nat), s.Inv → (runRecorded k s).Inv ∧ (runRecorded k s).launch = s.launch ∧
    s.pc ≤ (runRecorded k s).pc ∧ (runRecorded k s).pc ≤ s.pc + k

/-- 70_reset_and_hazards.md section 1, the launch state (the spec's decision D16), for any register values. Reset is one launch;
its configuration and its register values are the model's choice (log entries 2 and 3), and no clause names a
register value. -/
def Obligations.LaunchMeetsInvariant : Prop :=
  (∀ (p : Launch) (regs : AccFile), p.config.wf → (State.launched p regs).Inv ∧ (State.launched p regs).pc = 0 ∧
    (State.launched p regs).refusal = none ∧ (State.launched p regs).acc = regs ∧
    (State.launched p regs).launch = p) ∧
  State.reset.Inv ∧ State.reset.pc = 0 ∧ State.reset.refusal = none

/-- 20_memory.md section 3: no program modifies itself. 10_state.md section 8: the configuration is a parameter that does
not change during a run. 10_state.md section 2: pc goes up by one with each instruction (the spec's decision D12, log
entry 19). That the program and the configuration stand in a field of the state, whose constancy this says, is the
model's own choice (DESIGN CHOICE, log entry 4). -/
def Obligations.ProgramIsTheSameAtEveryFetch : Prop :=
  (∀ (i : Instr) (s t : State), exec i s = .next t → t.launch = s.launch) ∧
  (∀ (k : Nat) (s t : State), core.run k s = .next t → t.launch = s.launch ∧ t.pc = s.pc + k) ∧
  (∀ (k : Nat) (s : State), (runRecorded k s).launch = s.launch)

/-- 30_encoding.md section 6: the semantics of a decoded instruction do not depend on the IC values or on how its word was
recognised (decision D5, log entry 2). What is replaced is the field `launch` (log entry 4): the program, the five IC
values and the qualifier table (log entry 5). `SHIFT_OOR`, which 10_state.md section 8 also lists as a parameter, is a
constant of the model (log entry 1) and is not replaced: an out-of-range shift depends on it. -/
def Obligations.EffectIsIndependentOfTheConfiguration : Prop :=
  ∀ (i : Instr) (s t : State) (p : Launch), exec i s = .next t → exec i { s with launch := p } = .next { t with launch := p }

/-- The model's own `withFetchWord` (log entry 8), which stands for the host's load of a program (70_reset_and_hazards.md
section 5). -/
def Obligations.PlacedWordIsFetchedNext : Prop :=
  ∀ (s : State) (nbits w : Nat),
    (s.withFetchWord nbits w).fetch = some (tableWord nbits w) ∧ (s.withFetchWord nbits w).acc = s.acc ∧
    (s.withFetchWord nbits w).pc = s.pc ∧ (s.withFetchWord nbits w).launch.config = s.launch.config ∧
    (∀ k, k < s.launch.program.length → k ≠ s.pc →
      (s.withFetchWord nbits w).launch.program[k]? = s.launch.program[k]?) ∧
    (∀ i, decode s.launch.config (tableWord nbits w) = .ok i →
      step (s.withFetchWord nbits w) = exec i (s.withFetchWord nbits w))

/-- 20_memory.md section 1, the byte order of a loader: the parameter is open (decision D13). The third clause, that an image
which ends inside a word is no program, is stated nowhere in the spec: it is the model's own choice (DESIGN CHOICE, log
entry 17). -/
def Obligations.ByteImageLoadsToTheSameWords : Prop :=
  (∀ (o : ByteOrder) (ws : List Word), loadImage o (ws.flatMap (bytesOfWord o)) = .ok ws) ∧
  (∀ w : Word, (bytesOfWord .little w).head? = some (w.extractLsb' 0 8) ∧
    (bytesOfWord .big w).head? = some (w.extractLsb' 24 8)) ∧
  (∀ (o : ByteOrder) (bytes : List Byte), bytes.length % 4 ≠ 0 → loadImage o bytes = .error .partialWord)

/-- 30_encoding.md sections 8 and 10: the idioms the spec derives from the rules of or32, and32 and xor32. -/
def Obligations.CopyClearAndNoOpIdioms : Prop :=
  ∀ (q : Quals) (a d : Acc) (s : State),
    (∃ t, exec (.or32 q a a d) s = .next t ∧ WritesAcc s t d (s.readAcc a)) ∧
    (∃ t, exec (.and32 q a a d) s = .next t ∧ WritesAcc s t d (s.readAcc a)) ∧
    (∃ t, exec (.xor32 q a a d) s = .next t ∧ WritesAcc s t d 0#32) ∧
    exec (.or32 q a a a) s = .next { s with pc := s.pc + 1 }

/-- 70_reset_and_hazards.md section 1, the closure the spec derives: without launch constants no other constant can be made. -/
def Obligations.LogicKeepsExtremeHalves : Prop :=
  (∀ (i : Instr) (s t : State), i.isLogic = true → s.halvesExtreme → exec i s = .next t → t.halvesExtreme) ∧
  (∀ (i : Instr) (s t : State), i.isLogic = false → s.halvesExtreme →
    (∀ b, Operand.half b ∈ i.reads.drop 1 → (s.readHalf b).toNat < 16) → exec i s = .next t → t.halvesExtreme)
end

