-- ==== Sys2Proof/Laws/Words.lean ====
section
/-! SUPPORT. What the encoder's four word layouts hold, field by field, and the round trips of register numbers. Proofs
about decoding an encoded instruction cite these. -/

namespace Sys2Proof

@[simp] theorem accOfCode_code (r : Acc) : accOfCode r.code = r := by cases r <;> rfl

@[simp] theorem Acc.code_toNat (r : Acc) : r.code.toNat = r.number := by cases r <;> rfl

@[simp] theorem halfOfCode_code (r : Half) : halfOfCode r.code = r := by
  obtain ⟨n, side⟩ := r
  cases n <;> cases side <;> rfl

@[simp] theorem Half.code_toNat (r : Half) : r.code.toNat = r.index := by
  obtain ⟨n, side⟩ := r
  cases n <;> cases side <;> rfl

/-- The encoded field value of a decoded `$acc` field is the field. -/
@[simp] theorem code_accOfCode (f : BitVec 3) : (accOfCode f).code = f := by
  revert f; decide

/-- The encoded field value of a decoded half-register field is the field. -/
@[simp] theorem code_halfOfCode (f : BitVec 4) : (halfOfCode f).code = f := by
  revert f; decide

/-- The layout `wordL32` is the format table of 30_encoding.md (R50). -/
theorem wordL32_format (ic : BitVec 5) (q : Quals) (op2 op1 op0 : BitVec 3) :
    FormatL32 ic q op0.toNat op1.toNat op2.toNat (wordL32 ic q op2 op1 op0) := by
  unfold wordL32
  refine ⟨⟨?_, ?_, ?_, ?_, ?_, ?_, ?_⟩, ?_, ?_, ?_, ?_, ?_, ?_, ?_, ?_⟩ <;>
    first
    | apply BitVec.eq_of_getLsbD_eq
    | refine congrArg BitVec.toNat (BitVec.eq_of_getLsbD_eq ?_)
  all_goals
    intro k hk
    rw [BitVec.getLsbD_extractLsb']
    simp only [BitVec.getLsbD_append]
    interval_cases k <;> simp

/-- The layout `wordS32` is the format table of 30_encoding.md (R51). -/
theorem wordS32_format (ic : BitVec 5) (q : Quals) (dirLeft arith : BitVec 1) (op2 : BitVec 3) (op1 : BitVec 4)
    (op0 : BitVec 3) :
    FormatS32 ic q dirLeft arith op0.toNat op1.toNat op2.toNat (wordS32 ic q dirLeft arith op2 op1 op0) := by
  unfold wordS32
  refine ⟨⟨?_, ?_, ?_, ?_, ?_, ?_, ?_⟩, ?_, ?_, ?_, ?_, ?_, ?_, ?_, ?_⟩ <;>
    first
    | apply BitVec.eq_of_getLsbD_eq
    | refine congrArg BitVec.toNat (BitVec.eq_of_getLsbD_eq ?_)
  all_goals
    intro k hk
    rw [BitVec.getLsbD_extractLsb']
    simp only [BitVec.getLsbD_append]
    interval_cases k <;> simp

/-- The layout `wordL16` is the format table of 30_encoding.md (R52). -/
theorem wordL16_format (ic : BitVec 5) (q : Quals) (op2 op1 op0 : BitVec 4) :
    FormatL16 ic q op0.toNat op1.toNat op2.toNat (wordL16 ic q op2 op1 op0) := by
  unfold wordL16
  refine ⟨⟨?_, ?_, ?_, ?_, ?_, ?_, ?_⟩, ?_, ?_, ?_, ?_, ?_⟩ <;>
    first
    | apply BitVec.eq_of_getLsbD_eq
    | refine congrArg BitVec.toNat (BitVec.eq_of_getLsbD_eq ?_)
  all_goals
    intro k hk
    rw [BitVec.getLsbD_extractLsb']
    simp only [BitVec.getLsbD_append]
    interval_cases k <;> simp

/-- The layout `wordS16` is the format table of 30_encoding.md (R53). -/
theorem wordS16_format (ic : BitVec 5) (q : Quals) (dirLeft arith : BitVec 1) (op2 op1 op0 : BitVec 4) :
    FormatS16 ic q dirLeft arith op0.toNat op1.toNat op2.toNat (wordS16 ic q dirLeft arith op2 op1 op0) := by
  unfold wordS16
  refine ⟨⟨?_, ?_, ?_, ?_, ?_, ?_, ?_⟩, ?_, ?_, ?_, ?_, ?_, ?_⟩ <;>
    first
    | apply BitVec.eq_of_getLsbD_eq
    | refine congrArg BitVec.toNat (BitVec.eq_of_getLsbD_eq ?_)
  all_goals
    intro k hk
    rw [BitVec.getLsbD_extractLsb']
    simp only [BitVec.getLsbD_append]
    interval_cases k <;> simp

end Sys2Proof
end

