-- ==== Sys2Proof/Laws/Decode.lean ====
section
/-! SUPPORT. What the decoder does, once: its inversion, the class each `IC` parameter selects, and the instruction a word
of each format decodes to. Proofs about decoding cite these instead of unfolding `decode`. -/

namespace Sys2Proof

/-- Every word the decoder accepts has passed each test of 30_encoding.md R62, and conversely. -/
theorem decode_ok_iff (c : Config) (w : Word) (i : Instr) :
    decode c w = .ok i ↔
      w.extractLsb' 1 1 = 1#1 ∧ w.extractLsb' 2 2 = 2#2 ∧ w.extractLsb' 24 5 = 0#5 ∧
        c.admits (qualsOf w) = true ∧
        ∃ k, classOf c (w.extractLsb' 4 5) = some k ∧ decodeClass k w = .ok i := by
  unfold decode
  by_cases h1 : w.extractLsb' 1 1 = 1#1
  swap
  · simp [h1]
  by_cases h2 : w.extractLsb' 2 2 = 2#2
  swap
  · simp [h1, h2]
  cases hk : classOf c (w.extractLsb' 4 5) with
  | none => simp [h1, h2]
  | some k =>
    by_cases h3 : w.extractLsb' 24 5 = 0#5
    swap
    · simp [h1, h2, h3]
    cases hd : decodeClass k w with
    | error r => simp [h1, h2, h3, hd]
    | ok j => cases hq : c.admits (qualsOf w) <;> simp [h1, h2, h3, hd]

/-! ### The class each `IC` parameter selects, under distinct values -/

theorem classOf_icAnd (c : Config) : classOf c c.icAnd = some (.logic .and) := by simp [classOf]

theorem classOf_icOr {c : Config} (h : c.wf) : classOf c c.icOr = some (.logic .or) := by
  simp only [Config.wf, Config.icValues, List.nodup_cons, List.mem_cons, not_or] at h
  simp [classOf, Ne.symm h.1.1]

theorem classOf_icXor {c : Config} (h : c.wf) : classOf c c.icXor = some (.logic .xor) := by
  simp only [Config.wf, Config.icValues, List.nodup_cons, List.mem_cons, not_or] at h
  simp [classOf, Ne.symm h.1.2.1, Ne.symm h.2.1.1]

theorem classOf_icNot {c : Config} (h : c.wf) : classOf c c.icNot = some (.logic .not) := by
  simp only [Config.wf, Config.icValues, List.nodup_cons, List.mem_cons, not_or] at h
  simp [classOf, Ne.symm h.1.2.2.1, Ne.symm h.2.1.2.1, Ne.symm h.2.2.1.1]

theorem classOf_icShift {c : Config} (h : c.wf) : classOf c c.icShift = some .shift := by
  simp only [Config.wf, Config.icValues, List.nodup_cons, List.mem_cons, not_or] at h
  simp [classOf, Ne.symm h.1.2.2.2.1, Ne.symm h.2.1.2.2.1, Ne.symm h.2.2.1.2.1, Ne.symm h.2.2.2.1.1]

/-! ### The instruction a word of each format decodes to -/

theorem qualsOf_of_commonBits {ic : BitVec 5} {q : Quals} {w : Word} (h : CommonBits ic q w) : qualsOf w = q := by
  obtain ⟨h1, h2, -, -, -, -, h7⟩ := h
  simp [qualsOf, h1, h2, h7]

theorem accOfCode_of_toNat {f : BitVec 3} {r : Acc} (h : f.toNat = r.number) : accOfCode f = r := by
  rw [← accOfCode_code r]
  congr 1
  exact BitVec.eq_of_toNat_eq (by simp [h])

theorem halfOfCode_of_toNat {f : BitVec 4} {r : Half} (h : f.toNat = r.index) : halfOfCode f = r := by
  rw [← halfOfCode_code r]
  congr 1
  exact BitVec.eq_of_toNat_eq (by simp [h])

/-- The bits of a two-bit field. -/
theorem extract_pair (w : Word) : w.extractLsb' 22 2 = (w.extractLsb' 23 1 ++ w.extractLsb' 22 1 : BitVec 2) := by
  apply BitVec.eq_of_getLsbD_eq
  intro k hk
  rw [BitVec.getLsbD_append]
  interval_cases k <;> simp

/-- The shift kind of the two bits of 30_encoding.md R60. -/
theorem shiftKind_ra {w : Word} (hl : w.extractLsb' 23 1 = 0#1) (ha : w.extractLsb' 22 1 = 1#1) :
    shiftKindOf (w.extractLsb' 22 2) = some .ra := by rw [extract_pair, hl, ha]; rfl

theorem shiftKind_ll {w : Word} (hl : w.extractLsb' 23 1 = 1#1) (ha : w.extractLsb' 22 1 = 0#1) :
    shiftKindOf (w.extractLsb' 22 2) = some .ll := by rw [extract_pair, hl, ha]; rfl

theorem shiftKind_rl {w : Word} (hl : w.extractLsb' 23 1 = 0#1) (ha : w.extractLsb' 22 1 = 0#1) :
    shiftKindOf (w.extractLsb' 22 2) = some .rl := by rw [extract_pair, hl, ha]; rfl

/-- A word of format `L32` whose `IC` selects a logic class. -/
theorem decode_formatL32 {c : Config} {ic : BitVec 5} {q : Quals} {op1 : Nat} {a d : Acc} {w : Word} {op : LogicOp}
    (h : FormatL32 ic q a.number op1 d.number w) (hc : classOf c ic = some (.logic op)) (hq : c.admits q = true) :
    decode c w = .ok (logic32Instr op q a (accOfCode (w.extractLsb' 14 3)) d) := by
  have hqw := qualsOf_of_commonBits h.1
  obtain ⟨⟨-, -, h3, h4, h5, h6, -⟩, h8, h9, h10, h11, -, h13, h14, h15⟩ := h
  rw [decode_ok_iff]
  refine ⟨h6, h5, h3, by rw [hqw, hq], _, by rw [h4, hc], ?_⟩
  simp [decodeClass, decodeLogic, h8, h9, h11, h13, h15, hqw, accOfCode_of_toNat h10, accOfCode_of_toNat h14]

/-- A word of format `L16` whose `IC` selects a logic class. -/
theorem decode_formatL16 {c : Config} {ic : BitVec 5} {q : Quals} {op1 : Nat} {a d : Half} {w : Word} {op : LogicOp}
    (h : FormatL16 ic q a.index op1 d.index w) (hc : classOf c ic = some (.logic op)) (hq : c.admits q = true) :
    decode c w = .ok (logic16Instr op q a (halfOfCode (w.extractLsb' 13 4)) d) := by
  have hqw := qualsOf_of_commonBits h.1
  obtain ⟨⟨-, -, h3, h4, h5, h6, -⟩, h8, h9, h10, -, h12⟩ := h
  rw [decode_ok_iff]
  refine ⟨h6, h5, h3, by rw [hqw, hq], _, by rw [h4, hc], ?_⟩
  simp [decodeClass, decodeLogic, h8, h9, hqw, halfOfCode_of_toNat h10, halfOfCode_of_toNat h12]

/-- A word of format `S32` whose `IC` selects class SHIFT. -/
theorem decode_formatS32 {c : Config} {ic : BitVec 5} {q : Quals} {dirLeft arith : BitVec 1} {a d : Acc} {b : Half}
    {w : Word} {kind : ShiftKind} (h : FormatS32 ic q dirLeft arith a.number b.index d.number w)
    (hc : classOf c ic = some .shift) (hk : shiftKindOf (w.extractLsb' 22 2) = some kind) (hq : c.admits q = true) :
    decode c w = .ok (shift32Instr kind q a b d) := by
  have hqw := qualsOf_of_commonBits h.1
  obtain ⟨⟨-, -, h3, h4, h5, h6, -⟩, -, -, h9, h10, h11, h12, h13, h14⟩ := h
  rw [decode_ok_iff]
  refine ⟨h6, h5, h3, by rw [hqw, hq], _, by rw [h4, hc], ?_⟩
  simp [decodeClass, decodeShift, hk, h9, h11, h14, hqw, accOfCode_of_toNat h10, halfOfCode_of_toNat h12,
    accOfCode_of_toNat h13]

/-- A word of format `S16` whose `IC` selects class SHIFT. -/
theorem decode_formatS16 {c : Config} {ic : BitVec 5} {q : Quals} {dirLeft arith : BitVec 1} {a b d : Half}
    {w : Word} {kind : ShiftKind} (h : FormatS16 ic q dirLeft arith a.index b.index d.index w)
    (hc : classOf c ic = some .shift) (hk : shiftKindOf (w.extractLsb' 22 2) = some kind) (hq : c.admits q = true) :
    decode c w = .ok (shift16Instr kind q a b d) := by
  have hqw := qualsOf_of_commonBits h.1
  obtain ⟨⟨-, -, h3, h4, h5, h6, -⟩, -, -, h9, h10, h11, h12⟩ := h
  rw [decode_ok_iff]
  refine ⟨h6, h5, h3, by rw [hqw, hq], _, by rw [h4, hc], ?_⟩
  simp [decodeClass, decodeShift, hk, h9, hqw, halfOfCode_of_toNat h10, halfOfCode_of_toNat h11,
    halfOfCode_of_toNat h12]

end Sys2Proof
end

