-- ==== Sys2Proof/Laws/State.lean ====
section
/-! SUPPORT. What each update of the state does to each field, true by definition, and the reads of a register file
after a write. No later proof unfolds a record update. -/

namespace Sys2Proof.Machine

@[simp] theorem State.writeAcc_acc (s : State) (r : Acc) (v : Word) : (s.writeAcc r v).acc = s.acc.write r v := rfl
@[simp] theorem State.writeAcc_pc (s : State) (r : Acc) (v : Word) : (s.writeAcc r v).pc = s.pc := rfl
@[simp] theorem State.writeAcc_refusal (s : State) (r : Acc) (v : Word) : (s.writeAcc r v).refusal = s.refusal := rfl
@[simp] theorem State.writeAcc_launch (s : State) (r : Acc) (v : Word) : (s.writeAcc r v).launch = s.launch := rfl

@[simp] theorem State.writeHalf_acc (s : State) (r : Half) (v : HalfWord) :
    (s.writeHalf r v).acc = s.acc.writeHalf r v := rfl
@[simp] theorem State.writeHalf_pc (s : State) (r : Half) (v : HalfWord) : (s.writeHalf r v).pc = s.pc := rfl
@[simp] theorem State.writeHalf_refusal (s : State) (r : Half) (v : HalfWord) :
    (s.writeHalf r v).refusal = s.refusal := rfl
@[simp] theorem State.writeHalf_launch (s : State) (r : Half) (v : HalfWord) :
    (s.writeHalf r v).launch = s.launch := rfl

@[simp] theorem State.advance_acc (s : State) : s.advance.acc = s.acc := rfl
@[simp] theorem State.advance_pc (s : State) : s.advance.pc = s.pc + 1 := rfl
@[simp] theorem State.advance_refusal (s : State) : s.advance.refusal = s.refusal := rfl
@[simp] theorem State.advance_launch (s : State) : s.advance.launch = s.launch := rfl

@[simp] theorem State.recordRefusal_acc (s : State) (r : Refusal) : (s.recordRefusal r).acc = s.acc := rfl
@[simp] theorem State.recordRefusal_pc (s : State) (r : Refusal) : (s.recordRefusal r).pc = s.pc := rfl
@[simp] theorem State.recordRefusal_refusal (s : State) (r : Refusal) : (s.recordRefusal r).refusal = some r := rfl
@[simp] theorem State.recordRefusal_launch (s : State) (r : Refusal) : (s.recordRefusal r).launch = s.launch := rfl

@[simp] theorem State.launched_acc (p : Launch) (f : AccFile) : (State.launched p f).acc = f := rfl
@[simp] theorem State.launched_pc (p : Launch) (f : AccFile) : (State.launched p f).pc = 0 := rfl
@[simp] theorem State.launched_refusal (p : Launch) (f : AccFile) : (State.launched p f).refusal = none := rfl
@[simp] theorem State.launched_launch (p : Launch) (f : AccFile) : (State.launched p f).launch = p := rfl

@[simp] theorem State.withFetchWord_acc (s : State) (n w : Nat) : (s.withFetchWord n w).acc = s.acc := rfl
@[simp] theorem State.withFetchWord_pc (s : State) (n w : Nat) : (s.withFetchWord n w).pc = s.pc := rfl
@[simp] theorem State.withFetchWord_refusal (s : State) (n w : Nat) : (s.withFetchWord n w).refusal = none := rfl
@[simp] theorem State.withFetchWord_config (s : State) (n w : Nat) :
    (s.withFetchWord n w).launch.config = s.launch.config := rfl
@[simp] theorem State.withFetchWord_program (s : State) (n w : Nat) :
    (s.withFetchWord n w).launch.program = placeWord s.launch.program s.pc (tableWord n w) := rfl

/-! ### Reads after writes -/

@[simp] theorem AccFile.read_write_same (f : AccFile) (r : Acc) (v : Word) : (f.write r v).read r = v := by
  cases r <;> rfl

theorem AccFile.read_write_ne (f : AccFile) {r r' : Acc} (v : Word) (h : r' ≠ r) :
    (f.write r v).read r' = f.read r' := by
  cases r <;> cases r' <;> first | rfl | exact absurd rfl h

/-- Writing back what a register holds changes nothing. -/
@[simp] theorem AccFile.write_read (f : AccFile) (r : Acc) : f.write r (f.read r) = f := by
  cases r <;> rfl

/-- The high half of two halves joined. -/
@[simp] theorem append_high (a b : HalfWord) : (a ++ b : Word).extractLsb' 16 16 = a := by
  apply BitVec.eq_of_getLsbD_eq
  intro k hk
  rw [BitVec.getLsbD_extractLsb', BitVec.getLsbD_append]
  simp [hk]

/-- The low half of two halves joined. -/
@[simp] theorem append_low (a b : HalfWord) : (a ++ b : Word).extractLsb' 0 16 = b := by
  apply BitVec.eq_of_getLsbD_eq
  intro k hk
  rw [BitVec.getLsbD_extractLsb', BitVec.getLsbD_append]
  simp [hk]

/-- A word is its two halves joined (10_state.md R13). -/
theorem join_halves (v : Word) : (halfOf v .h ++ halfOf v .l : Word) = v := by
  apply BitVec.eq_of_getLsbD_eq
  intro k hk
  simp only [halfOf]
  rw [BitVec.getLsbD_append]
  split
  · simp [*]
  · have : 16 + (k - 16) = k := by omega
    have h16 : k - 16 < 16 := by omega
    simp [this, h16]

@[simp] theorem halfOf_withHalf_same (v : Word) (side : Side) (x : HalfWord) :
    halfOf (withHalf v side x) side = x := by
  cases side
  · exact append_low _ _
  · exact append_high _ _

theorem halfOf_withHalf_ne (v : Word) {side side' : Side} (x : HalfWord) (h : side' ≠ side) :
    halfOf (withHalf v side x) side' = halfOf v side' := by
  cases side <;> cases side'
  · exact absurd rfl h
  · exact append_high _ _
  · exact append_low _ _
  · exact absurd rfl h

@[simp] theorem AccFile.readHalf_writeHalf_same (f : AccFile) (r : Half) (v : HalfWord) :
    (f.writeHalf r v).readHalf r = v := by
  simp [AccFile.readHalf, AccFile.writeHalf]

theorem AccFile.readHalf_writeHalf_ne (f : AccFile) {r r' : Half} (v : HalfWord) (h : r' ≠ r) :
    (f.writeHalf r v).readHalf r' = f.readHalf r' := by
  obtain ⟨n, side⟩ := r
  obtain ⟨n', side'⟩ := r'
  by_cases hn : n' = n
  · subst hn
    have hs : side' ≠ side := fun e => h (by rw [e])
    simp [AccFile.readHalf, AccFile.writeHalf, halfOf_withHalf_ne _ _ hs]
  · simp [AccFile.readHalf, AccFile.writeHalf, AccFile.read_write_ne _ _ hn]

theorem AccFile.read_writeHalf_ne (f : AccFile) {r : Half} {n : Acc} (v : HalfWord) (h : n ≠ r.acc) :
    (f.writeHalf r v).read n = f.read n := AccFile.read_write_ne _ _ h

theorem AccFile.readHalf_write_ne (f : AccFile) {r : Acc} {h : Half} (v : Word) (hr : h.acc ≠ r) :
    (f.write r v).readHalf h = f.readHalf h := by
  simp [AccFile.readHalf, AccFile.read_write_ne _ _ hr]

end Sys2Proof.Machine
end

