-- ==== Sys2Proof/Laws/Exec.lean ====
section
/-! SUPPORT. One lemma for each shared operation, saying once everything it does, and the inversion of `exec` and
`step`: what a next state of either can be. Proofs cite these instead of unfolding the operations. -/

namespace Sys2Proof.Machine

/-- All that completing into a `$acc` register does. -/
theorem completeAcc_writes (s : State) (d : Acc) (v : Word) :
    ∃ t, completeAcc s d v = .next t ∧ WritesAcc s t d v :=
  ⟨_, rfl, by simp [State.readAcc], fun r hr => by simp [State.readAcc, AccFile.read_write_ne _ _ hr], rfl, rfl, rfl⟩

/-- All that completing into a half register does. -/
theorem completeHalf_writes (s : State) (d : Half) (v : HalfWord) :
    ∃ t, completeHalf s d v = .next t ∧ WritesHalf s t d v :=
  ⟨_, rfl, by simp [State.readHalf], fun r hr => by simp [State.readHalf, AccFile.readHalf_writeHalf_ne _ _ hr],
    rfl, rfl, rfl⟩

/-- A shift in range is the standard shift (41_shift32.md R85). -/
theorem shiftResult_inRange (kind : ShiftKind) {W : Nat} (x : BitVec W) {n : Nat} (h : n < W) :
    shiftResult kind x n = shiftInRange kind x n := by simp [shiftResult, h]

/-- A shift out of range is the free value (41_shift32.md R89). -/
theorem shiftResult_outOfRange (kind : ShiftKind) {W : Nat} (x : BitVec W) {n : Nat} (h : W ≤ n) :
    shiftResult kind x n = Config.shiftOor kind W x n := by simp [shiftResult, Nat.not_lt.mpr h]

/-- The integer form of a logical left shift is the bit-vector one. -/
theorem shiftInRange_ll {W : Nat} (x : BitVec W) (n : Nat) : shiftInRange .ll x n = x <<< n := by
  apply BitVec.eq_of_toNat_eq
  simp [shiftInRange, Nat.shiftLeft_eq]

/-- The integer form of a logical right shift is the bit-vector one. -/
theorem shiftInRange_rl {W : Nat} (x : BitVec W) (n : Nat) : shiftInRange .rl x n = x >>> n := by
  apply BitVec.eq_of_toNat_eq
  have h : x.toNat / 2 ^ n < 2 ^ W := lt_of_le_of_lt (Nat.div_le_self _ _) x.isLt
  simp [shiftInRange, Nat.shiftRight_eq_div_pow, Nat.mod_eq_of_lt h]

/-- The integer form of an arithmetic right shift is the bit-vector one. -/
theorem shiftInRange_ra {W : Nat} (x : BitVec W) (n : Nat) : shiftInRange .ra x n = x.sshiftRight n := by
  simp [shiftInRange, BitVec.sshiftRight, Int.shiftRight_eq_div_pow]

/-- What an instruction makes of the register file: its effect at one fixed program counter and launch. -/
def regsAfter (i : Instr) (f : AccFile) : AccFile :=
  match exec i { State.reset with acc := f } with
  | .next t => t.acc
  | .fault _ => f
  | .refused _ => f

/-- All that an instruction does to a state: the new registers are a function of the old ones alone, and `pc` is one
higher. -/
theorem exec_eq (i : Instr) (s : State) :
    exec i s = .next { s with acc := regsAfter i s.acc, pc := s.pc + 1 } := by
  cases i <;> rfl

/-- Inversion of `exec`. -/
theorem exec_next_iff (i : Instr) (s t : State) :
    exec i s = .next t ↔ t = { s with acc := regsAfter i s.acc, pc := s.pc + 1 } := by
  rw [exec_eq]
  exact ⟨fun h => (Host.Outcome.next.inj h).symm, fun h => by rw [h]⟩

/-- What a next state of a step comes from. -/
theorem step_next_cases {s t : State} (h : step s = .next t) :
    ∃ w i, s.refusal = none ∧ s.fetch = some w ∧ decode s.launch.config w = .ok i ∧ exec i s = .next t := by
  unfold step at h
  split at h
  · cases h
  · rename_i hr
    split at h
    · cases h
    · rename_i w hw
      split at h
      · cases h
      · rename_i i hi
        exact ⟨w, i, hr, hw, hi, h⟩

/-- A step at a word that decodes. -/
theorem step_of_decode {s : State} {w : Word} {i : Instr} (hr : s.refusal = none) (hw : s.fetch = some w)
    (hi : decode s.launch.config w = .ok i) : step s = exec i s := by simp [step, hr, hw, hi]

/-- A step at a word that does not decode. -/
theorem step_of_undecodable {s : State} {w : Word} {reason : DecodeReason} (hr : s.refusal = none)
    (hw : s.fetch = some w) (hi : decode s.launch.config w = .error reason) :
    step s = .refused (.undecodable reason) := by simp [step, hr, hw, hi]

/-- A step with nothing to fetch. -/
theorem step_of_runOver {s : State} (hr : s.refusal = none) (hw : s.fetch = none) : step s = .fault .runOver := by
  simp [step, hr, hw]

/-- A step after a refusal. -/
theorem step_of_refusal {s : State} {r : Refusal} (hr : s.refusal = some r) : step s = .refused r := by
  simp [step, hr]

end Sys2Proof.Machine
end

