-- ==== Sys2Proof/Laws/PerInstr.lean ====
section
/-! SUPPORT. One law per constructor of `Instr`: the fields every one of the fourteen encodings has, at the positions of
30_encoding.md R49. -/

namespace Sys2Proof.Laws.CommonFields

/-- The canonical word has the instruction's qualifier fields at `[31:30]`, `[29]` and `[0]`, `FU = 2'b10` at `[3:2]`,
`S = 1` at `[1]`, 0 in the bits `[28:24]` no entry names, and one of the five `IC` values at `[8:4]`
(30_encoding.md R49, R56). -/
def Statement (i : Instr) : Prop := ∀ c : Config, ∃ ic ∈ c.icValues, CommonBits ic i.quals (encode c i)

theorem and32 (q : Quals) (op0 op1 op2 : Acc) : Statement (.and32 q op0 op1 op2) :=
  fun _ => ⟨_, by simp [Config.icValues], (wordL32_format _ _ _ _ _).1⟩

theorem or32 (q : Quals) (op0 op1 op2 : Acc) : Statement (.or32 q op0 op1 op2) :=
  fun _ => ⟨_, by simp [Config.icValues], (wordL32_format _ _ _ _ _).1⟩

theorem xor32 (q : Quals) (op0 op1 op2 : Acc) : Statement (.xor32 q op0 op1 op2) :=
  fun _ => ⟨_, by simp [Config.icValues], (wordL32_format _ _ _ _ _).1⟩

theorem not32 (q : Quals) (op0 op2 : Acc) : Statement (.not32 q op0 op2) :=
  fun _ => ⟨_, by simp [Config.icValues], (wordL32_format _ _ _ _ _).1⟩

theorem shiftra32 (q : Quals) (op0 : Acc) (op1 : Half) (op2 : Acc) : Statement (.shiftra32 q op0 op1 op2) :=
  fun _ => ⟨_, by simp [Config.icValues], (wordS32_format _ _ _ _ _ _ _).1⟩

theorem shiftll32 (q : Quals) (op0 : Acc) (op1 : Half) (op2 : Acc) : Statement (.shiftll32 q op0 op1 op2) :=
  fun _ => ⟨_, by simp [Config.icValues], (wordS32_format _ _ _ _ _ _ _).1⟩

theorem shiftrl32 (q : Quals) (op0 : Acc) (op1 : Half) (op2 : Acc) : Statement (.shiftrl32 q op0 op1 op2) :=
  fun _ => ⟨_, by simp [Config.icValues], (wordS32_format _ _ _ _ _ _ _).1⟩

theorem and16 (q : Quals) (op0 op1 op2 : Half) : Statement (.and16 q op0 op1 op2) :=
  fun _ => ⟨_, by simp [Config.icValues], (wordL16_format _ _ _ _ _).1⟩

theorem or16 (q : Quals) (op0 op1 op2 : Half) : Statement (.or16 q op0 op1 op2) :=
  fun _ => ⟨_, by simp [Config.icValues], (wordL16_format _ _ _ _ _).1⟩

theorem xor16 (q : Quals) (op0 op1 op2 : Half) : Statement (.xor16 q op0 op1 op2) :=
  fun _ => ⟨_, by simp [Config.icValues], (wordL16_format _ _ _ _ _).1⟩

theorem not16 (q : Quals) (op0 op2 : Half) : Statement (.not16 q op0 op2) :=
  fun _ => ⟨_, by simp [Config.icValues], (wordL16_format _ _ _ _ _).1⟩

theorem shiftra16 (q : Quals) (op0 op1 op2 : Half) : Statement (.shiftra16 q op0 op1 op2) :=
  fun _ => ⟨_, by simp [Config.icValues], (wordS16_format _ _ _ _ _ _ _).1⟩

theorem shiftll16 (q : Quals) (op0 op1 op2 : Half) : Statement (.shiftll16 q op0 op1 op2) :=
  fun _ => ⟨_, by simp [Config.icValues], (wordS16_format _ _ _ _ _ _ _).1⟩

theorem shiftrl16 (q : Quals) (op0 op1 op2 : Half) : Statement (.shiftrl16 q op0 op1 op2) :=
  fun _ => ⟨_, by simp [Config.icValues], (wordS16_format _ _ _ _ _ _ _).1⟩

end Sys2Proof.Laws.CommonFields
end

