-- ==== Sys2Proof/Tests/Slice0.lean ====
section
/-! SUPPORT. Tests: every expected value is from spec/ (the file and table stand in each comment), under the default
configuration. And the named witnesses: for each statement with hypotheses, a state and operands that meet them. -/

namespace Sys2Proof.Tests

open Sys2Proof.Machine

/-- A machine at `pc = 0` of a program of one word, with the first three registers given and the others as in
95_test_vectors.md section 3. -/
def start (w : Word) (a b d : Word) : State :=
  State.launched { program := [w], config := Config.default }
    { AccFile.reset with acc0 := a, acc1 := b, acc2 := d }

/-- A register after one step, if the step executes. -/
def accAfter (s : State) (r : Acc) : Option Word :=
  match step s with
  | .next t => some (t.readAcc r)
  | _ => none

/-- `pc` after one step, if the step executes. -/
def pcAfter (s : State) : Option Nat :=
  match step s with
  | .next t => some t.pc
  | _ => none

/-- The qualifier fields of the spec's listings: `PR = 0, T = 1, P = 0` (30_encoding.md R65). -/
def q0 : Quals := { pr := 0#2, t := 1#1, p := 0#1 }

/-! ### Well-formedness: each check refuses an ill-formed term -/

/-- 30_encoding.md R58: the default values are pairwise distinct. -/
theorem test_default_config_wf : Config.default.wf := by decide

/-- 30_encoding.md R58: two equal `IC` values are refused. -/
theorem test_equal_ic_values_refused : ¬ { Config.default with icShift := 0#5 }.wf := by decide

/-- 95_test_vectors.md section 2.2: the stricter predicate that admits `PR = 0, T = 1, P = 0` only. -/
def strict : Config := { Config.default with admitted := 0x0004#16 }

/-- 95_test_vectors.md section 2.2: `PR = 1` is not admitted by the stricter predicate. -/
theorem test_unadmitted_quals_refused :
    ¬ (Instr.and32 { q0 with pr := 1#2 } .acc0 .acc1 .acc2).wf strict := by decide

/-- 95_test_vectors.md section 2.2: the one admitted combination. -/
theorem test_admitted_quals_wf : (Instr.and32 q0 .acc0 .acc1 .acc2).wf strict := by decide

/-! ### Decoding: each constructor from a word the spec writes out -/

/-- 95_test_vectors.md section 2.1. -/
theorem test_decode_and32 : decode Config.default 0x201DDC0A#32 = .ok (.and32 q0 .acc7 .acc7 .acc7) := by decide

/-- 40_logic32.md R82. -/
theorem test_decode_or32 : decode Config.default 0x20150C1A#32 = .ok (.or32 q0 .acc3 .acc4 .acc5) := by decide

/-- 95_test_vectors.md section 2.4. -/
theorem test_decode_xor32 : decode Config.default 0x2000402A#32 = .ok (.xor32 q0 .acc0 .acc1 .acc0) := by decide

/-- 40_logic32.md R84, OP1 = 7. -/
theorem test_decode_not32 : decode Config.default 0x2005D83A#32 = .ok (.not32 q0 .acc6 .acc1) := by decide

/-- 95_test_vectors.md section 2.3. -/
theorem test_decode_shiftra32 : decode Config.default 0x2048604A#32 = .ok (.shiftra32 q0 .acc0 ⟨.acc1, .h⟩ .acc2) := by decide

/-- 41_shift32.md R87. -/
theorem test_decode_shiftll32 : decode Config.default 0x208D2C4A#32 = .ok (.shiftll32 q0 .acc3 ⟨.acc4, .h⟩ .acc3) := by decide

/-- 41_shift32.md R88. -/
theorem test_decode_shiftrl32 : decode Config.default 0x20005C4A#32 = .ok (.shiftrl32 q0 .acc7 ⟨.acc1, .l⟩ .acc0) := by decide

/-- 95_test_vectors.md section 2.3. -/
theorem test_decode_and16 : decode Config.default 0x2024220A#32 = .ok (.and16 q0 ⟨.acc0, .h⟩ ⟨.acc0, .h⟩ ⟨.acc1, .l⟩) := by decide

/-- 42_logic16.md R92. -/
theorem test_decode_or16 : decode Config.default 0x202ACA1A#32 = .ok (.or16 q0 ⟨.acc2, .h⟩ ⟨.acc3, .l⟩ ⟨.acc2, .h⟩) := by decide

/-- 95_test_vectors.md section 2.6. -/
theorem test_decode_xor16 : decode Config.default 0x2033322A#32 = .ok (.xor16 q0 ⟨.acc4, .h⟩ ⟨.acc4, .h⟩ ⟨.acc4, .h⟩) := by decide

/-- 95_test_vectors.md section 2.3, OP1 = 9. -/
theorem test_decode_not16 : decode Config.default 0x203D223A#32 = .ok (.not16 q0 ⟨.acc0, .h⟩ ⟨.acc7, .l⟩) := by decide

/-- 43_shift16.md R96. -/
theorem test_decode_shiftra16 : decode Config.default 0x2060424A#32 = .ok (.shiftra16 q0 ⟨.acc0, .h⟩ ⟨.acc1, .l⟩ ⟨.acc0, .l⟩) := by decide

/-- 43_shift16.md R97. -/
theorem test_decode_shiftll16 : decode Config.default 0x20B9B84A#32 = .ok (.shiftll16 q0 ⟨.acc6, .l⟩ ⟨.acc6, .h⟩ ⟨.acc6, .l⟩) := by decide

/-- 43_shift16.md R98. -/
theorem test_decode_shiftrl16 : decode Config.default 0x202E924A#32 = .ok (.shiftrl16 q0 ⟨.acc4, .h⟩ ⟨.acc2, .l⟩ ⟨.acc3, .h⟩) := by decide

/-- 95_test_vectors.md section 2.2, last row: `PR = 3, T = 1, P = 1` is recorded. -/
theorem test_decode_quals :
    decode Config.default 0xE008400B#32 = .ok (.and32 ⟨3#2, 1#1, 1#1⟩ .acc0 .acc1 .acc2) := by decide

/-- 95_test_vectors.md section 2.1: all operand bits 1. -/
theorem test_encode_shiftll16 :
    encode Config.default (.shiftll16 q0 ⟨.acc7, .h⟩ ⟨.acc7, .h⟩ ⟨.acc7, .h⟩) = 0x20BFFE4A#32 := by decide

/-- 95_test_vectors.md section 2.1: the canonical `not32` has `OP1 = 0`. -/
theorem test_encode_not32 : encode Config.default (.not32 q0 .acc7 .acc7) = 0x201C1C3A#32 := by decide

/-- The second configuration of 95_test_vectors.md section 2.1. -/
def otherConfig : Config :=
  { icAnd := 0x10#5, icOr := 0x11#5, icXor := 0x12#5, icNot := 0x13#5, icShift := 0x1F#5, admitted := 0xFFFF#16 }

/-- 95_test_vectors.md section 2.1, another configuration. -/
theorem test_encode_other_config :
    encode otherConfig (.shiftll16 q0 ⟨.acc6, .l⟩ ⟨.acc6, .h⟩ ⟨.acc6, .l⟩) = 0x20B9B9FA#32 := by decide

/-- 95_test_vectors.md section 2.1: the default word of `and32` under another configuration. -/
theorem test_refuse_other_config : decode otherConfig 0x2008400A#32 = .error .unassignedIC := by decide

/-! ### Refused words, 95_test_vectors.md section 2.3 -/

theorem test_refuse_zero_word : decode Config.default 0x00000000#32 = .error .notA32BitWord := by decide

theorem test_refuse_s_before_fu : decode Config.default 0x20084000#32 = .error .notA32BitWord := by decide

theorem test_refuse_all_ones : decode Config.default 0xFFFFFFFF#32 = .error .otherFunctionalUnit := by decide

theorem test_refuse_fu_before_ic : decode Config.default 0x200841F2#32 = .error .otherFunctionalUnit := by decide

theorem test_refuse_ic5 : decode Config.default 0x2008405A#32 = .error .unassignedIC := by decide

theorem test_refuse_ic_before_bit24 : decode Config.default 0x210841FA#32 = .error .unassignedIC := by decide

theorem test_refuse_bit24 : decode Config.default 0x2108400A#32 = .error .unlistedBitsNonzero := by decide

theorem test_refuse_bit28 : decode Config.default 0x3008400A#32 = .error .unlistedBitsNonzero := by decide

theorem test_refuse_and_bit22 : decode Config.default 0x2048400A#32 = .error .unlistedBitsNonzero := by decide

theorem test_refuse_l32_bit17 : decode Config.default 0x200A400A#32 = .error .unlistedBitsNonzero := by decide

theorem test_refuse_l32_bit13 : decode Config.default 0x2008600A#32 = .error .unlistedBitsNonzero := by decide

theorem test_refuse_l32_bit9 : decode Config.default 0x2008420A#32 = .error .unlistedBitsNonzero := by decide

theorem test_refuse_shift32_kind3 : decode Config.default 0x20C8404A#32 = .error .reservedShiftKind := by decide

theorem test_refuse_shift16_kind3 : decode Config.default 0x20E4204A#32 = .error .reservedShiftKind := by decide

theorem test_refuse_s32_bit17 : decode Config.default 0x204A404A#32 = .error .unlistedBitsNonzero := by decide

theorem test_refuse_s32_bit9 : decode Config.default 0x2048424A#32 = .error .unlistedBitsNonzero := by decide

theorem test_refuse_l16_bit22 : decode Config.default 0x2064200A#32 = .error .unlistedBitsNonzero := by decide

/-- 95_test_vectors.md section 2.2: the stricter predicate refuses `PR = 0, T = 0, P = 0`. -/
theorem test_refuse_unadmitted : decode strict 0x0008400A#32 = .error .qualifierNotAdmitted := by decide

/-- 95_test_vectors.md section 1.1: the truth table of the signal. -/
theorem test_true32 : true32BitInsn 0x2008400A#32 = true ∧ true32BitInsn 0x0008400A#32 = false ∧
    true32BitInsn 0x20084008#32 = false ∧ true32BitInsn 0x00084008#32 = false := by decide

/-- 30_encoding.md R65: the listing of the word of 40_logic32.md R81. -/
theorem test_listing : (Instr.and32 q0 .acc0 .acc1 .acc2).listing = "and32 $acc0, $acc1, $acc2" := by decide

/-! ### One step of each instruction -/

/-- 95_test_vectors.md section 2.4. -/
theorem test_step_and32 : accAfter (start 0x2008400A#32 0xA5A5A5A5#32 0x0F0F0F0F#32 0x33333333#32) .acc2 = some 0x05050505#32 := by decide

/-- 95_test_vectors.md section 2.4. -/
theorem test_step_and32_dest_is_source : accAfter (start 0x2004400A#32 0x0F0F0F0F#32 0x00FF00FF#32 0x33333333#32) .acc1 = some 0x000F000F#32 := by decide

/-- 95_test_vectors.md section 2.4. -/
theorem test_step_or32 : accAfter (start 0x2008401A#32 0x80000000#32 0x00000001#32 0x33333333#32) .acc2 = some 0x80000001#32 := by decide

/-- 95_test_vectors.md section 2.4. -/
theorem test_step_xor32 : accAfter (start 0x2008402A#32 0x80000000#32 0x7FFFFFFF#32 0x33333333#32) .acc2 = some 0xFFFFFFFF#32 := by decide

/-- 95_test_vectors.md section 2.4. -/
theorem test_step_not32 : accAfter (start 0x2008003A#32 0x12345678#32 0xCAFEBABE#32 0x33333333#32) .acc2 = some 0xEDCBA987#32 := by decide

/-- 95_test_vectors.md section 2.5. -/
theorem test_step_shiftra32_floor : accAfter (start 0x2048404A#32 0xFFFFFFF1#32 0x00000002#32 0x33333333#32) .acc2 = some 0xFFFFFFFC#32 := by decide

/-- 95_test_vectors.md section 2.5. -/
theorem test_step_shiftra32_amount_in_dest : accAfter (start 0x2044604A#32 0x80000010#32 0x0003FFFF#32 0x33333333#32) .acc1 = some 0xF0000002#32 := by decide

/-- 95_test_vectors.md section 2.5. -/
theorem test_step_shiftll32_top : accAfter (start 0x2088404A#32 0xFFFFFFFF#32 0x0000001F#32 0x33333333#32) .acc2 = some 0x80000000#32 := by decide

/-- 95_test_vectors.md section 2.5. -/
theorem test_step_shiftll32_amount_in_value : accAfter (start 0x2080204A#32 0x00040003#32 0x22222222#32 0x33333333#32) .acc0 = some 0x00400030#32 := by decide

/-- 95_test_vectors.md section 2.5. -/
theorem test_step_shiftrl32_top : accAfter (start 0x2008404A#32 0x80000000#32 0x0000001F#32 0x33333333#32) .acc2 = some 0x00000001#32 := by decide

/-- 95_test_vectors.md section 2.6. -/
theorem test_step_and16 : accAfter (start 0x202A400A#32 0xDEADA5A5#32 0xBEEF0F0F#32 0x33333333#32) .acc2 = some 0x05053333#32 := by decide

/-- 95_test_vectors.md section 2.6. -/
theorem test_step_and16_same_acc : accAfter (start 0x2020200A#32 0x12345678#32 0x22222222#32 0x33333333#32) .acc0 = some 0x12341230#32 := by decide

/-- 95_test_vectors.md section 2.6. -/
theorem test_step_or16 : accAfter (start 0x2022201A#32 0x12345678#32 0x22222222#32 0x33333333#32) .acc0 = some 0x567C5678#32 := by decide

/-- 95_test_vectors.md section 2.6. -/
theorem test_step_xor16 : accAfter (start 0x2022222A#32 0x12345678#32 0x22222222#32 0x33333333#32) .acc0 = some 0x00005678#32 := by decide

/-- 95_test_vectors.md section 2.6. -/
theorem test_step_not16 : accAfter (start 0x2022003A#32 0x12345678#32 0x22222222#32 0x33333333#32) .acc0 = some 0xA9875678#32 := by decide

/-- 95_test_vectors.md section 2.7. -/
theorem test_step_shiftra16_own_sign : accAfter (start 0x2060404A#32 0x80007FFF#32 0x00000004#32 0x33333333#32) .acc0 = some 0x800007FF#32 := by decide

/-- 95_test_vectors.md section 2.7. -/
theorem test_step_shiftra16_top : accAfter (start 0x206A404A#32 0xDEAD8000#32 0xBEEF000F#32 0x33333333#32) .acc2 = some 0xFFFF3333#32 := by decide

/-- 95_test_vectors.md section 2.7. -/
theorem test_step_shiftll16_no_carry : accAfter (start 0x20A0404A#32 0xFFFF8000#32 0x00000001#32 0x33333333#32) .acc0 = some 0xFFFF0000#32 := by decide

/-- 95_test_vectors.md section 2.7. -/
theorem test_step_shiftll16_amount_is_dest : accAfter (start 0x20A2204A#32 0x00030001#32 0x22222222#32 0x33333333#32) .acc0 = some 0x00080001#32 := by decide

/-- 95_test_vectors.md section 2.7. -/
theorem test_step_shiftrl16_no_carry : accAfter (start 0x2022424A#32 0x00018000#32 0x00000001#32 0x33333333#32) .acc0 = some 0x00008000#32 := by decide

/-- 95_test_vectors.md section 2.5: an amount of 32 gives the free value and the instruction completes. -/
theorem test_step_shiftrl32_out_of_range :
    accAfter (start 0x2008404A#32 0x80000000#32 0x00000020#32 0x33333333#32) .acc2 =
      some (Config.shiftOor .rl 32 0x80000000#32 32) := rfl

/-- 95_test_vectors.md section 2.7: an amount of 16 is out of range at width 16; the low half is kept. -/
theorem test_step_shiftrl16_out_of_range :
    accAfter (start 0x202A404A#32 0xDEAD8000#32 0xBEEF0010#32 0x33333333#32) .acc2 =
      some (Config.shiftOor .rl 16 0x8000#16 16 ++ 0x3333#16) := rfl

/-- 10_state.md R16: `pc` goes from 0 to 1. -/
theorem test_step_pc : pcAfter (start 0x2008400A#32 0#32 0#32 0#32) = some 1 := by decide

/-- 95_test_vectors.md P6, word 1: refused, registers and `pc` kept. -/
theorem test_step_refused :
    stepRecorded (start 0x2108400A#32 1#32 2#32 3#32) =
      { start 0x2108400A#32 1#32 2#32 3#32 with refusal := some (.undecodable .unlistedBitsNonzero) } := by decide

/-- 70_reset_and_hazards.md R123: at `pc = N` the run is over. -/
theorem test_step_run_over : step State.reset = .fault .runOver := rfl

/-- opcode_table.json, row `and32`: its `match` decodes, and step runs it as the first instruction after reset. -/
theorem test_table_word_runs : decodeTableWord 32 0x0000000A = some (.and32 ⟨0#2, 0#1, 0#1⟩ .acc0 .acc0 .acc0) ∧
    pcAfter (State.reset.withFetchWord 32 0x0000000A) = some 1 := by decide

/-- 20_memory.md R32: the two byte orders. -/
theorem test_load_image : loadImage .little [0x0A#8, 0x40#8, 0x08#8, 0x20#8] = .ok [0x2008400A#32] ∧
    loadImage .big [0x20#8, 0x08#8, 0x40#8, 0x0A#8] = .ok [0x2008400A#32] := by decide

/-! ### Witnesses: the hypotheses of the statements are met together -/

/-- A configuration with distinct values that admits everything, for every statement that asks for one. -/
theorem witness_config : Config.default.wf ∧ (∃ q, Config.default.admits q = true) ∧
    ∀ q : Quals, Config.default.admits q = true := by
  refine ⟨by decide, ⟨q0, by decide⟩, ?_⟩
  rintro ⟨pr, t, p⟩
  revert pr t p
  decide

theorem witness_and32_encoding : Config.default.wf ∧ Config.default.admits q0 = true ∧
    FormatL32 Config.default.icAnd q0 Acc.acc0.number Acc.acc1.number Acc.acc2.number 0x2008400A#32 := by
  simp only [FormatL32, CommonBits]; decide

theorem witness_or32_encoding : Config.default.wf ∧ Config.default.admits q0 = true ∧
    FormatL32 Config.default.icOr q0 Acc.acc3.number Acc.acc4.number Acc.acc5.number 0x20150C1A#32 := by
  simp only [FormatL32, CommonBits]; decide

theorem witness_xor32_encoding : Config.default.wf ∧ Config.default.admits q0 = true ∧
    FormatL32 Config.default.icXor q0 Acc.acc7.number Acc.acc7.number Acc.acc7.number 0x201DDC2A#32 := by
  simp only [FormatL32, CommonBits]; decide

theorem witness_not32_encoding : Config.default.wf ∧ Config.default.admits q0 = true ∧
    FormatL32 Config.default.icNot q0 Acc.acc6.number 7 Acc.acc1.number 0x2005D83A#32 := by
  simp only [FormatL32, CommonBits]; decide

theorem witness_shiftra32_encoding : Config.default.wf ∧ Config.default.admits q0 = true ∧
    FormatS32 Config.default.icShift q0 0#1 1#1 Acc.acc0.number (Half.mk .acc1 .h).index Acc.acc2.number 0x2048604A#32 := by
  simp only [FormatS32, CommonBits]; decide

theorem witness_shiftll32_encoding : Config.default.wf ∧ Config.default.admits q0 = true ∧
    FormatS32 Config.default.icShift q0 1#1 0#1 Acc.acc3.number (Half.mk .acc4 .h).index Acc.acc3.number 0x208D2C4A#32 := by
  simp only [FormatS32, CommonBits]; decide

theorem witness_shiftrl32_encoding : Config.default.wf ∧ Config.default.admits q0 = true ∧
    FormatS32 Config.default.icShift q0 0#1 0#1 Acc.acc7.number (Half.mk .acc1 .l).index Acc.acc0.number 0x20005C4A#32 := by
  simp only [FormatS32, CommonBits]; decide

theorem witness_and16_encoding : Config.default.wf ∧ Config.default.admits q0 = true ∧
    FormatL16 Config.default.icAnd q0 (Half.mk .acc0 .h).index (Half.mk .acc0 .h).index (Half.mk .acc1 .l).index 0x2024220A#32 := by
  simp only [FormatL16, CommonBits]; decide

theorem witness_or16_encoding : Config.default.wf ∧ Config.default.admits q0 = true ∧
    FormatL16 Config.default.icOr q0 (Half.mk .acc2 .h).index (Half.mk .acc3 .l).index (Half.mk .acc2 .h).index 0x202ACA1A#32 := by
  simp only [FormatL16, CommonBits]; decide

theorem witness_xor16_encoding : Config.default.wf ∧ Config.default.admits q0 = true ∧
    FormatL16 Config.default.icXor q0 (Half.mk .acc7 .h).index (Half.mk .acc7 .h).index (Half.mk .acc7 .h).index 0x203FFE2A#32 := by
  simp only [FormatL16, CommonBits]; decide

theorem witness_not16_encoding : Config.default.wf ∧ Config.default.admits q0 = true ∧
    FormatL16 Config.default.icNot q0 (Half.mk .acc0 .h).index 9 (Half.mk .acc7 .l).index 0x203D223A#32 := by
  simp only [FormatL16, CommonBits]; decide

theorem witness_shiftra16_encoding : Config.default.wf ∧ Config.default.admits q0 = true ∧
    FormatS16 Config.default.icShift q0 0#1 1#1 (Half.mk .acc0 .h).index (Half.mk .acc1 .l).index (Half.mk .acc0 .l).index 0x2060424A#32 := by
  simp only [FormatS16, CommonBits]; decide

theorem witness_shiftll16_encoding : Config.default.wf ∧ Config.default.admits q0 = true ∧
    FormatS16 Config.default.icShift q0 1#1 0#1 (Half.mk .acc6 .l).index (Half.mk .acc6 .h).index (Half.mk .acc6 .l).index 0x20B9B84A#32 := by
  simp only [FormatS16, CommonBits]; decide

theorem witness_shiftrl16_encoding : Config.default.wf ∧ Config.default.admits q0 = true ∧
    FormatS16 Config.default.icShift q0 0#1 0#1 (Half.mk .acc4 .h).index (Half.mk .acc2 .l).index (Half.mk .acc3 .h).index 0x202E924A#32 := by
  simp only [FormatS16, CommonBits]; decide

/-- For `InRangeShiftMovesBits`: the largest amount in range, at bits 0 and 31, on both sides of each condition. -/
theorem witness_in_range_shift : (31 < 32 ∧ 0 < 32) ∧ (¬ 31 ≤ 0 ∧ 0 + 31 < 32) ∧ (31 ≤ 31 ∧ ¬ 31 + 31 < 32) := by decide

/-- For `AmountBoundIsTheDataWidth`: the amounts 16 and 31. -/
theorem witness_amount_bound :
    let s := start 0#32 0x001F0010#32 0#32 0#32
    (16 ≤ (s.readHalf ⟨.acc0, .l⟩).toNat ∧ (s.readHalf ⟨.acc0, .l⟩).toNat < 32) ∧
    (16 ≤ (s.readHalf ⟨.acc0, .h⟩).toNat ∧ (s.readHalf ⟨.acc0, .h⟩).toNat < 32) := by decide

/-- For `InstructionsTouchOnlyTheirOperands`: an `and16`, a half register outside its destination, and two different
states that agree on its operands. -/
theorem witness_touch_only :
    let i : Instr := .and16 q0 ⟨.acc0, .l⟩ ⟨.acc0, .h⟩ ⟨.acc1, .l⟩
    let s := start 0#32 5#32 6#32 7#32
    let s' := start 0#32 5#32 8#32 9#32
    ¬ i.dest.covers ⟨.acc1, .h⟩ ∧ s ≠ s' ∧ (∀ o ∈ i.reads, SameIn o s s') ∧
      (∃ t, exec i s = .next t) ∧ ∃ t', exec i s' = .next t' := by
  refine ⟨by simp [Instr.dest, Operand.covers], by decide, ?_, ⟨_, exec_eq _ _⟩, ⟨_, exec_eq _ _⟩⟩
  intro o ho
  simp only [Instr.reads, List.mem_cons, List.not_mem_nil, or_false] at ho
  rcases ho with rfl | rfl <;> simp only [SameIn] <;> decide

/-- For `QualifiersDoNotChangeTheOperation`: two words that differ in every qualifier bit. -/
theorem witness_quals : (∀ q : Quals, Config.default.admits q = true) ∧
    (0xC008400B#32).extractLsb' 1 28 = (0x2008400A#32).extractLsb' 1 28 ∧
    decode Config.default 0x2008400A#32 = .ok (.and32 q0 .acc0 .acc1 .acc2) :=
  ⟨witness_config.2.2, by decide, by decide⟩

/-- For `NotIgnoresItsOp1Field`: both NOT forms, 95_test_vectors.md section 2.3. -/
theorem witness_not_op1 :
    (decode Config.default 0x201C003A#32 = .ok (.not32 q0 .acc0 .acc7) ∧
      canonicalWord (.not32 q0 .acc0 .acc7) 0x201D403A#32 = canonicalWord (.not32 q0 .acc0 .acc7) 0x201C003A#32) ∧
    (decode Config.default 0x203C023A#32 = .ok (.not16 q0 ⟨.acc0, .h⟩ ⟨.acc7, .l⟩) ∧
      canonicalWord (.not16 q0 ⟨.acc0, .h⟩ ⟨.acc7, .l⟩) 0x203D223A#32 =
        canonicalWord (.not16 q0 ⟨.acc0, .h⟩ ⟨.acc7, .l⟩) 0x203C023A#32) := by decide

/-- For `DecodeOfEncodeIsTheInstruction` and `DistinctIcValuesAreNeeded`. -/
theorem witness_round_trip : otherConfig.wf ∧ (∃ q, otherConfig.admits q = true) ∧
    (Instr.shiftra32 q0 .acc7 ⟨.acc7, .h⟩ .acc7).wf otherConfig := ⟨by decide, ⟨q0, by decide⟩, by decide⟩

/-- For `EncodeOfDecodeIsTheCanonicalWord` and `OperandSizeFollowsOpSize16`: one word of each width. -/
theorem witness_decodes : decode otherConfig 0x2008410A#32 = .ok (.and32 q0 .acc0 .acc1 .acc2) ∧
    decode otherConfig 0x20B9B9FA#32 = .ok (.shiftll16 q0 ⟨.acc6, .l⟩ ⟨.acc6, .h⟩ ⟨.acc6, .l⟩) := by decide

/-- For `RefusalReasonsInOrder`: two words that decode and two that the qualifier predicate refuses, one of each class. -/
theorem witness_refusal_quals : Config.default.wf ∧ strict.wf ∧
    Config.default.admits (qualsOf 0x2008400A#32) = true ∧ Config.default.admits (qualsOf 0x2048404A#32) = true ∧
    strict.admits (qualsOf 0x0008400A#32) = false ∧ strict.admits (qualsOf 0x0048404A#32) = false := by decide

/-- For its clauses on `S`, `FU` and `IC`: words of 95_test_vectors.md section 2.3. -/
theorem witness_refusal_common :
    (0x20084008#32).extractLsb' 1 1 = 0#1 ∧
    ((0x20084002#32).extractLsb' 1 1 = 1#1 ∧ (0x20084002#32).extractLsb' 2 2 ≠ 2#2) ∧
    ((0x2008405A#32).extractLsb' 4 5 ∉ Config.default.icValues ∧ (0x2008405A#32).extractLsb' 2 2 = 2#2) ∧
    ((0x2108400A#32).extractLsb' 4 5 = Config.default.icAnd ∧ (0x2108400A#32).extractLsb' 24 5 ≠ 0#5) := by decide

/-- For its clauses on the formats: a logic word with bit 22 set, one with bit 17, one with bit 13, a shift word of the
reserved kind, and one with bit 17 set. -/
theorem witness_refusal_formats :
    ((0x2048400A#32).extractLsb' 24 5 = 0#5 ∧ (0x2048400A#32).extractLsb' 22 2 ≠ 0#2) ∧
    ((0x200A400A#32).extractLsb' 21 1 = 0#1 ∧ (0x200A400A#32).extractLsb' 17 1 = 1#1) ∧
    ((0x2008600A#32).extractLsb' 21 1 = 0#1 ∧ (0x2008600A#32).extractLsb' 13 1 = 1#1) ∧
    ((0x20C8404A#32).extractLsb' 4 5 = Config.default.icShift ∧ (0x20C8404A#32).extractLsb' 22 2 = 3#2) ∧
    ((0x204A404A#32).extractLsb' 22 2 ≠ 3#2 ∧ (0x204A404A#32).extractLsb' 17 1 = 1#1) := by decide

/-- For `ShiftKindFollowsDirectionAndArith`: a word of each kind. -/
theorem witness_shift_kinds :
    ((0x2048404A#32).extractLsb' 4 5 = Config.default.icShift ∧ (0x2048404A#32).extractLsb' 23 1 = 0#1 ∧
      (0x2048404A#32).extractLsb' 22 1 = 1#1 ∧
      decode Config.default 0x2048404A#32 = .ok (.shiftra32 q0 .acc0 ⟨.acc1, .l⟩ .acc2)) ∧
    ((0x2088404A#32).extractLsb' 4 5 = Config.default.icShift ∧ (0x2088404A#32).extractLsb' 23 1 = 1#1 ∧
      (0x2088404A#32).extractLsb' 22 1 = 0#1 ∧
      decode Config.default 0x2088404A#32 = .ok (.shiftll32 q0 .acc0 ⟨.acc1, .l⟩ .acc2)) ∧
    ((0x202A404A#32).extractLsb' 4 5 = Config.default.icShift ∧ (0x202A404A#32).extractLsb' 23 1 = 0#1 ∧
      (0x202A404A#32).extractLsb' 22 1 = 0#1 ∧
      decode Config.default 0x202A404A#32 = .ok (.shiftrl16 q0 ⟨.acc0, .l⟩ ⟨.acc1, .l⟩ ⟨.acc2, .h⟩)) := by decide

/-- For `True32BitSignalIsSAndT`: a word that decodes with `T = 0`. -/
theorem witness_true32 :
    decode Config.default 0x0008400A#32 = .ok (.and32 { q0 with t := 0#1 } .acc0 .acc1 .acc2) := by decide

/-- For `AccFieldNamesTheRegisterOfItsValue`: the two end values. -/
theorem witness_acc_fields : (0#3 : BitVec 3) ≠ 7#3 ∧ accOfCode 0#3 = .acc0 ∧ accOfCode 7#3 = .acc7 := by decide

/-- For `HalfWriteKeepsEverythingElse`: the other half of the same register, and another register. -/
theorem witness_half_write : (Half.mk .acc0 .h) ≠ ⟨.acc0, .l⟩ ∧ Acc.acc1 ≠ .acc0 := by decide

/-- For `StepRunsTheDecodedInstruction` and the second clause of `RefusedStepChangesNothing`. -/
theorem witness_step_runs :
    let s := start 0x2008400A#32 1#32 2#32 3#32
    s.refusal = none ∧ s.fetch = some 0x2008400A#32 ∧
      decode s.launch.config 0x2008400A#32 = .ok (.and32 q0 .acc0 .acc1 .acc2) := by decide

/-- For the first clause of `RefusedStepChangesNothing`. -/
theorem witness_step_refused :
    let s := start 0x2108400A#32 1#32 2#32 3#32
    s.refusal = none ∧ s.fetch = some 0x2108400A#32 ∧
      decode s.launch.config 0x2108400A#32 = .error .unlistedBitsNonzero := by decide

/-- For `RecordedRefusalStays`. -/
theorem witness_recorded_refusal :
    (stepRecorded (start 0x2108400A#32 1#32 2#32 3#32)).refusal = some (.undecodable .unlistedBitsNonzero) := by decide

/-- For `StepInsideTheProgramHasTwoOutcomes` (the first) and `RunIsOverAtTheEndOfTheProgram` (the second, at `pc = N`). -/
theorem witness_inside_and_end :
    let s := start 0x2008400A#32 1#32 2#32 3#32
    (s.refusal = none ∧ s.pc < s.launch.program.length) ∧
      ((stepRecorded s).refusal = none ∧ (stepRecorded s).launch.program.length ≤ (stepRecorded s).pc) := by decide

/-- For the first run clause of `EveryRunEndsOrIsRefused`: every word of the program decodes. -/
theorem witness_run_ends :
    let p : Launch := { program := [0x2008400A#32, 0x2048404A#32], config := Config.default }
    ∀ k, k < p.program.length → (State.launched p AccFile.reset).decodableAt k := by
  intro p k hk
  have hk2 : k < 2 := hk
  interval_cases k
  · exact ⟨0x2008400A#32, .and32 q0 .acc0 .acc1 .acc2, by decide, by decide⟩
  · exact ⟨0x2048404A#32, .shiftra32 q0 .acc0 ⟨.acc1, .l⟩ .acc2, by decide, by decide⟩

/-- For its second run clause: 95_test_vectors.md P6, refused at word 1. -/
theorem witness_run_refused :
    let p : Launch := { program := [0x2000003A#32, 0x2108400A#32, 0x2000001A#32], config := Config.default }
    1 < p.program.length ∧ (∀ k, k < 1 → (State.launched p AccFile.reset).decodableAt k) ∧
      ¬ (State.launched p AccFile.reset).decodableAt 1 := by
  refine ⟨by decide, ?_, ?_⟩
  · intro k hk
    interval_cases k
    exact ⟨0x2000003A#32, .not32 q0 .acc0 .acc0, by decide, by decide⟩
  · rintro ⟨w, i, hw, hi⟩
    have h1 : w = 0x2108400A#32 := (Option.some.inj hw).symm
    rw [h1] at hi
    have h2 : decode Config.default 0x2108400A#32 = .error .unlistedBitsNonzero := by decide
    exact absurd (h2.symm.trans hi) (by simp)

/-- For `StepKeepsInvariant`, `RecordedStepKeepsInvariant` and `LaunchMeetsInvariant`: a launch meets the invariant and
its step executes. -/
theorem witness_invariant :
    (start 0x2008400A#32 1#32 2#32 3#32).Inv ∧ ∃ t, step (start 0x2008400A#32 1#32 2#32 3#32) = .next t :=
  ⟨⟨by decide, by decide, fun r hr => by cases hr⟩, ⟨_, rfl⟩⟩

/-- For `RecordedStepKeepsInvariant`, at a state with a recorded refusal. -/
theorem witness_invariant_refused : (stepRecorded (start 0x2108400A#32 1#32 2#32 3#32)).Inv := by
  refine ⟨by decide, by decide, ?_⟩
  intro r hr
  exact ⟨0x2108400A#32, .unlistedBitsNonzero, by decide, by decide, (Option.some.inj hr).symm⟩

/-- For `ProgramIsTheSameAtEveryFetch` and `EffectIsIndependentOfTheConfiguration`: two steps that execute. -/
theorem witness_two_steps : ∃ t, core.run 2
    (State.launched { program := [0x2008400A#32, 0x2008083A#32], config := Config.default } AccFile.reset) = .next t :=
  ⟨_, rfl⟩

/-- For `PlacedWordIsFetchedNext`: a program of two words with `pc` at the second, and a word that decodes. -/
theorem witness_placed_word :
    let s : State := { State.launched { program := [0x2008400A#32, 0#32], config := Config.default } AccFile.reset
      with pc := 1 }
    (0 < s.launch.program.length ∧ 0 ≠ s.pc) ∧
      decode s.launch.config (tableWord 32 0x2008400A) = .ok (.and32 q0 .acc0 .acc1 .acc2) := by decide

/-- For `ByteImageLoadsToTheSameWords`: an image of five bytes. -/
theorem witness_partial_image : [1#8, 2#8, 3#8, 4#8, 5#8].length % 4 ≠ 0 := by decide

/-- A state whose halves are all zeros or all ones. -/
def extreme : State :=
  State.launched { program := [], config := Config.default }
    { acc0 := 0xFFFF0000#32, acc1 := 0#32, acc2 := 0#32, acc3 := 0#32, acc4 := 0#32, acc5 := 0#32, acc6 := 0#32,
      acc7 := 0xFFFFFFFF#32 }

/-- For `LogicKeepsExtremeHalves`: a logic instruction, and a shift by the amount 0. -/
theorem witness_extreme_halves : extreme.halvesExtreme ∧
    (Instr.not16 q0 ⟨.acc0, .l⟩ ⟨.acc0, .l⟩).isLogic = true ∧
    (Instr.shiftra32 q0 .acc7 ⟨.acc0, .l⟩ .acc0).isLogic = false ∧
    (∀ b, Operand.half b ∈ (Instr.shiftra32 q0 .acc7 ⟨.acc0, .l⟩ .acc0).reads.drop 1 →
      (extreme.readHalf b).toNat < 16) := by
  refine ⟨?_, rfl, rfl, ?_⟩
  · rintro ⟨n, side⟩
    cases n <;> cases side <;> decide
  · intro b hb
    simp only [Instr.reads, List.drop, List.mem_cons, List.not_mem_nil, or_false, Operand.half.injEq] at hb
    subst hb
    decide

end Sys2Proof.Tests
end

namespace Sys2Proof.Machine

/-! ### What each instruction reads and writes (10_state.md R24) -/

/-- A value computed from a state depends on the listed operands alone. -/
def DependsOnlyOn {α : Type} (l : List Operand) (g : State → α) : Prop :=
  ∀ s s', (∀ o ∈ l, SameIn o s s') → g s = g s'

theorem readAcc_dependsOnlyOn {l : List Operand} {a : Acc} (ha : .acc a ∈ l) :
    DependsOnlyOn l (·.readAcc a) := fun _ _ h => h _ ha

theorem readHalf_dependsOnlyOn {l : List Operand} {a : Half} (ha : .half a ∈ l) :
    DependsOnlyOn l (·.readHalf a) := fun _ _ h => h _ ha

theorem DependsOnlyOn.map {α β : Type} {l : List Operand} {g : State → α} (f : α → β)
    (hg : DependsOnlyOn l g) : DependsOnlyOn l (fun s => f (g s)) :=
  fun s s' h => congrArg f (hg s s' h)

theorem DependsOnlyOn.map₂ {α β γ : Type} {l : List Operand} {g : State → α} {k : State → β} (f : α → β → γ)
    (hg : DependsOnlyOn l g) (hk : DependsOnlyOn l k) : DependsOnlyOn l (fun s => f (g s) (k s)) :=
  fun s s' h => congrArg₂ f (hg s s' h) (hk s s' h)

/-- The instruction completes into its destination of the table, with a value that depends on its reads of the table
alone. -/
inductive CompletesIntoDest (i : Instr) : Prop where
  | acc (d : Acc) (g : State → Word) (dest : i.dest = .acc d) (reads : DependsOnlyOn i.reads g)
      (completes : ∀ s, exec i s = completeAcc s d (g s))
  | half (d : Half) (g : State → HalfWord) (dest : i.dest = .half d) (reads : DependsOnlyOn i.reads g)
      (completes : ∀ s, exec i s = completeHalf s d (g s))

section
variable {i : Instr}

theorem completesIntoDest_of_logic32 {f : Word → Word → Word} {a b d : Acc} (dest : i.dest = .acc d)
    (reads : i.reads = [.acc a, .acc b]) (completes : ∀ s, exec i s = logic32 f a b d s) : CompletesIntoDest i :=
  .acc d _ dest (.map₂ f (readAcc_dependsOnlyOn (by simp [reads])) (readAcc_dependsOnlyOn (by simp [reads])))
    completes

theorem completesIntoDest_of_logic16 {f : HalfWord → HalfWord → HalfWord} {a b d : Half} (dest : i.dest = .half d)
    (reads : i.reads = [.half a, .half b]) (completes : ∀ s, exec i s = logic16 f a b d s) : CompletesIntoDest i :=
  .half d _ dest (.map₂ f (readHalf_dependsOnlyOn (by simp [reads])) (readHalf_dependsOnlyOn (by simp [reads])))
    completes

theorem completesIntoDest_of_shift32 {kind : ShiftKind} {a : Acc} {b : Half} {d : Acc} (dest : i.dest = .acc d)
    (reads : i.reads = [.acc a, .half b]) (completes : ∀ s, exec i s = shift32 kind a b d s) : CompletesIntoDest i :=
  .acc d _ dest (.map₂ (fun x (n : HalfWord) => shiftResult kind x n.toNat)
    (readAcc_dependsOnlyOn (by simp [reads])) (readHalf_dependsOnlyOn (by simp [reads]))) completes

theorem completesIntoDest_of_shift16 {kind : ShiftKind} {a b d : Half} (dest : i.dest = .half d)
    (reads : i.reads = [.half a, .half b]) (completes : ∀ s, exec i s = shift16 kind a b d s) : CompletesIntoDest i :=
  .half d _ dest (.map₂ (fun x (n : HalfWord) => shiftResult kind x n.toNat)
    (readHalf_dependsOnlyOn (by simp [reads])) (readHalf_dependsOnlyOn (by simp [reads]))) completes

end

/-- Each of the fourteen instructions follows its row of the table of 10_state.md R24. -/
theorem exec_completesIntoDest (i : Instr) : CompletesIntoDest i := by
  cases i with
  | and32 | or32 | xor32 => exact completesIntoDest_of_logic32 rfl rfl fun _ => rfl
  | not32 q a d => exact .acc d _ rfl (.map (~~~·) (readAcc_dependsOnlyOn (.head _))) fun _ => rfl
  | shiftra32 | shiftll32 | shiftrl32 => exact completesIntoDest_of_shift32 rfl rfl fun _ => rfl
  | and16 | or16 | xor16 => exact completesIntoDest_of_logic16 rfl rfl fun _ => rfl
  | not16 q a d => exact .half d _ rfl (.map (~~~·) (readHalf_dependsOnlyOn (.head _))) fun _ => rfl
  | shiftra16 | shiftll16 | shiftrl16 => exact completesIntoDest_of_shift16 rfl rfl fun _ => rfl

/-- What a next state of an instruction that completes into a `$acc` register can be. -/
theorem completeAcc_next {s t : State} {d : Acc} {v : Word} (h : completeAcc s d v = .next t) : WritesAcc s t d v := by
  obtain ⟨t', ht', hw⟩ := completeAcc_writes s d v
  obtain rfl := Host.Outcome.next.inj (ht'.symm.trans h)
  exact hw

/-- What a next state of an instruction that completes into a half register can be. -/
theorem completeHalf_next {s t : State} {d : Half} {v : HalfWord} (h : completeHalf s d v = .next t) :
    WritesHalf s t d v := by
  obtain ⟨t', ht', hw⟩ := completeHalf_writes s d v
  obtain rfl := Host.Outcome.next.inj (ht'.symm.trans h)
  exact hw

/-- The halves of every other `$acc` register keep their values. -/
theorem WritesAcc.readHalf_of_ne {s t : State} {d : Acc} {v : Word} (hw : WritesAcc s t d v) {r : Half}
    (hr : r.acc ≠ d) : t.readHalf r = s.readHalf r :=
  congrArg (halfOf · r.side) (hw.others r.acc hr)

theorem exec_readHalf_of_not_covers {i : Instr} {s t : State} (h : exec i s = .next t) {r : Half}
    (hr : ¬ i.dest.covers r) : t.readHalf r = s.readHalf r := by
  obtain ⟨d, g, dest, -, completes⟩ | ⟨d, g, dest, -, completes⟩ := exec_completesIntoDest i <;>
    rw [completes] at h <;> rw [dest] at hr
  · exact (completeAcc_next h).readHalf_of_ne hr
  · exact (completeHalf_next h).others r hr

theorem exec_sameIn_dest {i : Instr} {s s' t t' : State} (hs : ∀ o ∈ i.reads, SameIn o s s')
    (h : exec i s = .next t) (h' : exec i s' = .next t') : SameIn i.dest t t' := by
  obtain ⟨d, g, dest, reads, completes⟩ | ⟨d, g, dest, reads, completes⟩ := exec_completesIntoDest i <;>
    rw [completes] at h h' <;> rw [dest]
  · calc t.readAcc d = g s := (completeAcc_next h).result
      _ = g s' := reads s s' hs
      _ = t'.readAcc d := (completeAcc_next h').result.symm
  · calc t.readHalf d = g s := (completeHalf_next h).result
      _ = g s' := reads s s' hs
      _ = t'.readHalf d := (completeHalf_next h').result.symm

theorem exec_pc_refusal_launch {i : Instr} {s t : State} (h : exec i s = .next t) :
    t.pc = s.pc + 1 ∧ t.refusal = s.refusal ∧ t.launch = s.launch := by
  rw [exec_next_iff] at h
  subst h
  exact ⟨rfl, rfl, rfl⟩

/-- Settles O17: every instruction completes into its destination with a value that depends on its reads alone. -/
theorem instructionsTouchOnlyTheirOperands : Obligations.InstructionsTouchOnlyTheirOperands :=
  ⟨fun _ _ _ h _ hr => exec_readHalf_of_not_covers h hr, fun _ _ _ _ _ hs h h' => exec_sameIn_dest hs h h',
    fun _ _ _ h => exec_pc_refusal_launch h⟩

end Sys2Proof.Machine

namespace Sys2Proof

/-! ### The signal `true_32bit_insn` and the recorded qualifiers (30_encoding.md R48, R49) -/

@[simp] theorem logic32Instr_quals (op : LogicOp) (q : Quals) (a b d : Acc) : (logic32Instr op q a b d).quals = q := by
  cases op <;> rfl

@[simp] theorem logic16Instr_quals (op : LogicOp) (q : Quals) (a b d : Half) : (logic16Instr op q a b d).quals = q := by
  cases op <;> rfl

@[simp] theorem shift32Instr_quals (kind : ShiftKind) (q : Quals) (a : Acc) (b : Half) (d : Acc) :
    (shift32Instr kind q a b d).quals = q := by
  cases kind <;> rfl

@[simp] theorem shift16Instr_quals (kind : ShiftKind) (q : Quals) (a b d : Half) :
    (shift16Instr kind q a b d).quals = q := by
  cases kind <;> rfl

@[simp] theorem Instr.quals_withQuals (i : Instr) (q : Quals) : (i.withQuals q).quals = q := by
  cases i <;> rfl

theorem decodeLogic_quals {op : LogicOp} {w : Word} {i : Instr} (h : decodeLogic op w = .ok i) :
    i.quals = qualsOf w := by
  unfold decodeLogic at h
  split_ifs at h <;> cases h
  · exact logic16Instr_quals ..
  · exact logic32Instr_quals ..

theorem decodeShift_quals {w : Word} {i : Instr} (h : decodeShift w = .ok i) : i.quals = qualsOf w := by
  unfold decodeShift at h
  cases hk : shiftKindOf (w.extractLsb' 22 2) with
  | none => simp [hk] at h
  | some kind =>
    simp only [hk] at h
    split_ifs at h <;> cases h
    · exact shift16Instr_quals ..
    · exact shift32Instr_quals ..

/-- A decoded instruction records the qualifier fields of its word (30_encoding.md R62 step 7). -/
theorem decode_quals {c : Config} {w : Word} {i : Instr} (h : decode c w = .ok i) : i.quals = qualsOf w := by
  obtain ⟨-, -, -, -, k, -, hd⟩ := (decode_ok_iff c w i).mp h
  cases k with
  | logic op => exact decodeLogic_quals hd
  | shift => exact decodeShift_quals hd

/-- Every canonical word has the fields that all four formats share. -/
theorem encode_commonBits : ∀ i : Instr, Laws.CommonFields.Statement i
  | .and32 .. => Laws.CommonFields.and32 _ _ _ _
  | .or32 .. => Laws.CommonFields.or32 _ _ _ _
  | .xor32 .. => Laws.CommonFields.xor32 _ _ _ _
  | .not32 .. => Laws.CommonFields.not32 _ _ _
  | .shiftra32 .. => Laws.CommonFields.shiftra32 _ _ _ _
  | .shiftll32 .. => Laws.CommonFields.shiftll32 _ _ _ _
  | .shiftrl32 .. => Laws.CommonFields.shiftrl32 _ _ _ _
  | .and16 .. => Laws.CommonFields.and16 _ _ _ _
  | .or16 .. => Laws.CommonFields.or16 _ _ _ _
  | .xor16 .. => Laws.CommonFields.xor16 _ _ _ _
  | .not16 .. => Laws.CommonFields.not16 _ _ _
  | .shiftra16 .. => Laws.CommonFields.shiftra16 _ _ _ _
  | .shiftll16 .. => Laws.CommonFields.shiftll16 _ _ _ _
  | .shiftrl16 .. => Laws.CommonFields.shiftrl16 _ _ _ _

theorem extractLsb'_one_eq_one_iff (w : Word) (k : Nat) : w.extractLsb' k 1 = 1#1 ↔ w.getLsbD k = true := by
  simp [BitVec.eq_of_getLsbD_eq_iff]

/-- In a word with `S = 1` the signal is `T`. -/
theorem true32BitInsn_iff {w : Word} (hS : w.extractLsb' 1 1 = 1#1) :
    true32BitInsn w = true ↔ (qualsOf w).t = 1#1 := by
  rw [extractLsb'_one_eq_one_iff] at hS
  rw [true32BitInsn, hS, Bool.true_and]
  exact (extractLsb'_one_eq_one_iff w 29).symm

theorem true32BitInsn_of_decode {c : Config} {w : Word} {i : Instr} (h : decode c w = .ok i) :
    true32BitInsn w = true ↔ i.quals.t = 1#1 := by
  rw [decode_quals h]
  exact true32BitInsn_iff ((decode_ok_iff c w i).mp h).1

theorem true32BitInsn_encode (c : Config) (i : Instr) : true32BitInsn (encode c i) = true ↔ i.quals.t = 1#1 := by
  obtain ⟨_, -, hb⟩ := encode_commonBits i c
  rw [← qualsOf_of_commonBits hb]
  obtain ⟨-, -, -, -, -, hS, -⟩ := hb
  exact true32BitInsn_iff hS

/-! ### `$acc` field values (30_encoding.md R54) -/

theorem accOfCode_number (f : BitVec 3) : (accOfCode f).number = f.toNat := by
  rw [← Acc.code_toNat, code_accOfCode]

theorem accOfCode_injective : Function.Injective accOfCode :=
  Function.LeftInverse.injective code_accOfCode

theorem Acc.number_injective : Function.Injective Acc.number := fun r r' h => by
  rw [← accOfCode_code r, Acc.code, h]
  exact accOfCode_code r'

end Sys2Proof

namespace Sys2Proof.Machine

theorem exec_withQuals (i : Instr) (q : Quals) (s : State) : exec (i.withQuals q) s = exec i s := by
  cases i <;> rfl

/-- Settles O30: `S` is 1 in every word that decodes or is encoded, so there the signal is `T`. -/
theorem true32BitSignalIsSAndT : Obligations.True32BitSignalIsSAndT := by
  refine ⟨fun _ => rfl, fun _ _ _ h => true32BitInsn_of_decode h, fun c i => ⟨?_, ?_⟩, fun i _ s => exec_withQuals i _ s⟩
  · simp [true32BitInsn_encode]
  · simp [← Bool.not_eq_true, true32BitInsn_encode]

/-- Settles O31: `accOfCode` and `Acc.code` are inverse to each other, and a write is read back through the register
it names and through no other. -/
theorem accFieldNamesTheRegisterOfItsValue : Obligations.AccFieldNamesTheRegisterOfItsValue :=
  ⟨accOfCode_number, accOfCode_code, fun _ _ h => Acc.number_injective h,
    fun s _ v => AccFile.read_write_same s.acc _ v,
    fun s _ _ v h => AccFile.read_write_ne s.acc v fun e => h (accOfCode_injective e).symm⟩

end Sys2Proof.Machine

namespace Sys2Proof

/-! ### The words of a two-source `*32` logic instruction (30_encoding.md R50) -/

/-- The table of format `L32` fixes the `OP1` field. -/
theorem FormatL32.op1_toNat {ic : BitVec 5} {q : Quals} {op0 op1 op2 : Nat} {w : Word}
    (h : FormatL32 ic q op0 op1 op2 w) : (w.extractLsb' 14 3).toNat = op1 := by
  obtain ⟨-, -, -, -, -, hop1, -⟩ := h
  exact hop1

/-- A word of format `L32` whose `IC` selects a logic class and whose `OP1` field holds the number of `$acc<b>`. -/
theorem decode_formatL32_of_op1 {c : Config} {ic : BitVec 5} {q : Quals} {a b d : Acc} {w : Word} {op : LogicOp}
    (h : FormatL32 ic q a.number b.number d.number w) (hc : classOf c ic = some (.logic op)) (hq : c.admits q = true) :
    decode c w = .ok (logic32Instr op q a b d) := by
  rw [decode_formatL32 h hc hq, accOfCode_of_toNat h.op1_toNat]

end Sys2Proof

namespace Sys2Proof.Machine

/-! ### The 32-bit logic instructions (40_logic32.md R81 to R84) -/

theorem exec_and32 (q : Quals) (a b d : Acc) (s : State) :
    exec (.and32 q a b d) s = completeAcc s d (s.readAcc a &&& s.readAcc b) := rfl

theorem exec_or32 (q : Quals) (a b d : Acc) (s : State) :
    exec (.or32 q a b d) s = completeAcc s d (s.readAcc a ||| s.readAcc b) := rfl

theorem exec_xor32 (q : Quals) (a b d : Acc) (s : State) :
    exec (.xor32 q a b d) s = completeAcc s d (s.readAcc a ^^^ s.readAcc b) := rfl

theorem exec_not32 (q : Quals) (a d : Acc) (s : State) :
    exec (.not32 q a d) s = completeAcc s d (~~~(s.readAcc a)) := rfl

/-- Settles O1: `and32` completes into its destination, and a word of format `L32` with `IC_AND` selects class AND. -/
theorem and32WritesBitwiseAnd : Obligations.And32WritesBitwiseAnd := by
  refine ⟨fun q a b d s => ?_, fun c _ _ _ _ _ _ hq h => decode_formatL32_of_op1 h (classOf_icAnd c) hq⟩
  rw [exec_and32]
  exact completeAcc_writes s d _

/-- Settles O2: `or32` completes into its destination, and a word of format `L32` with `IC_OR` selects class OR. -/
theorem or32WritesBitwiseOr : Obligations.Or32WritesBitwiseOr := by
  refine ⟨fun q a b d s => ?_, fun _ _ _ _ _ _ hwf hq h => decode_formatL32_of_op1 h (classOf_icOr hwf) hq⟩
  rw [exec_or32]
  exact completeAcc_writes s d _

/-- Settles O3: `xor32` completes into its destination, and a word of format `L32` with `IC_XOR` selects class XOR. -/
theorem xor32WritesBitwiseXor : Obligations.Xor32WritesBitwiseXor := by
  refine ⟨fun q a b d s => ?_, fun _ _ _ _ _ _ hwf hq h => decode_formatL32_of_op1 h (classOf_icXor hwf) hq⟩
  rw [exec_xor32]
  exact completeAcc_writes s d _

/-- Settles O4: `not32` completes into its destination, and its class drops the `OP1` field, whatever it holds. -/
theorem not32WritesComplement : Obligations.Not32WritesComplement := by
  refine ⟨fun q a d s => ?_, fun _ _ _ _ _ _ hwf hq h => decode_formatL32 h (classOf_icNot hwf) hq⟩
  rw [exec_not32]
  exact completeAcc_writes s d _

end Sys2Proof.Machine

namespace Sys2Proof

/-! ### The shift kind bits of a word of format `S32` (30_encoding.md R51, R60) -/

theorem FormatS32.dirLeft_eq {ic : BitVec 5} {q : Quals} {dirLeft arith : BitVec 1} {op0 op1 op2 : Nat} {w : Word}
    (h : FormatS32 ic q dirLeft arith op0 op1 op2 w) : w.extractLsb' 23 1 = dirLeft := by
  obtain ⟨-, hl, -⟩ := h
  exact hl

theorem FormatS32.arith_eq {ic : BitVec 5} {q : Quals} {dirLeft arith : BitVec 1} {op0 op1 op2 : Nat} {w : Word}
    (h : FormatS32 ic q dirLeft arith op0 op1 op2 w) : w.extractLsb' 22 1 = arith := by
  obtain ⟨-, -, ha, -⟩ := h
  exact ha

end Sys2Proof

namespace Sys2Proof.Machine

/-! ### The result of a shift of each kind, by any amount and at every width (41_shift32.md R85, R89) -/

theorem shiftResult_ra {W : Nat} (x : BitVec W) (n : Nat) :
    shiftResult .ra x n = if n < W then BitVec.ofInt W (x.toInt / (2 ^ n : Nat)) else Config.shiftOor .ra W x n := rfl

theorem shiftResult_ll {W : Nat} (x : BitVec W) (n : Nat) :
    shiftResult .ll x n = if n < W then BitVec.ofNat W (x.toNat * 2 ^ n) else Config.shiftOor .ll W x n := rfl

theorem shiftResult_rl {W : Nat} (x : BitVec W) (n : Nat) :
    shiftResult .rl x n = if n < W then BitVec.ofNat W (x.toNat / 2 ^ n) else Config.shiftOor .rl W x n := rfl

/-! ### The 32-bit shift instructions (41_shift32.md R86 to R88) -/

theorem exec_shiftra32 (q : Quals) (a : Acc) (b : Half) (d : Acc) (s : State) :
    exec (.shiftra32 q a b d) s = completeAcc s d (shiftResult .ra (s.readAcc a) (s.readHalf b).toNat) := rfl

theorem exec_shiftll32 (q : Quals) (a : Acc) (b : Half) (d : Acc) (s : State) :
    exec (.shiftll32 q a b d) s = completeAcc s d (shiftResult .ll (s.readAcc a) (s.readHalf b).toNat) := rfl

theorem exec_shiftrl32 (q : Quals) (a : Acc) (b : Half) (d : Acc) (s : State) :
    exec (.shiftrl32 q a b d) s = completeAcc s d (shiftResult .rl (s.readAcc a) (s.readHalf b).toNat) := rfl

/-- Settles O5: `shiftra32` completes into its destination, and bits 23 and 22 of its words select kind `ra`. -/
theorem shiftra32WritesShiftOrFreeValue : Obligations.Shiftra32WritesShiftOrFreeValue := by
  refine ⟨fun q a b d s => ?_, fun _ _ _ _ _ _ hwf hq h =>
    decode_formatS32 h (classOf_icShift hwf) (shiftKind_ra h.dirLeft_eq h.arith_eq) hq⟩
  rw [exec_shiftra32, shiftResult_ra]
  exact completeAcc_writes s d _

/-- Settles O6: `shiftll32` completes into its destination, and bits 23 and 22 of its words select kind `ll`. -/
theorem shiftll32WritesShiftOrFreeValue : Obligations.Shiftll32WritesShiftOrFreeValue := by
  refine ⟨fun q a b d s => ?_, fun _ _ _ _ _ _ hwf hq h =>
    decode_formatS32 h (classOf_icShift hwf) (shiftKind_ll h.dirLeft_eq h.arith_eq) hq⟩
  rw [exec_shiftll32, shiftResult_ll]
  exact completeAcc_writes s d _

/-- Settles O7: `shiftrl32` completes into its destination, and bits 23 and 22 of its words select kind `rl`. -/
theorem shiftrl32WritesShiftOrFreeValue : Obligations.Shiftrl32WritesShiftOrFreeValue := by
  refine ⟨fun q a b d s => ?_, fun _ _ _ _ _ _ hwf hq h =>
    decode_formatS32 h (classOf_icShift hwf) (shiftKind_rl h.dirLeft_eq h.arith_eq) hq⟩
  rw [exec_shiftrl32, shiftResult_rl]
  exact completeAcc_writes s d _

end Sys2Proof.Machine

namespace Sys2Proof

/-! ### The words of a two-source `*16` logic instruction (30_encoding.md R52) -/

/-- The table of format `L16` fixes the `OP1` field. -/
theorem FormatL16.op1_toNat {ic : BitVec 5} {q : Quals} {op0 op1 op2 : Nat} {w : Word}
    (h : FormatL16 ic q op0 op1 op2 w) : (w.extractLsb' 13 4).toNat = op1 := by
  obtain ⟨-, -, -, -, hop1, -⟩ := h
  exact hop1

/-- A word of format `L16` whose `IC` selects a logic class and whose `OP1` field holds the index of `b`. -/
theorem decode_formatL16_of_op1 {c : Config} {ic : BitVec 5} {q : Quals} {a b d : Half} {w : Word} {op : LogicOp}
    (h : FormatL16 ic q a.index b.index d.index w) (hc : classOf c ic = some (.logic op)) (hq : c.admits q = true) :
    decode c w = .ok (logic16Instr op q a b d) := by
  rw [decode_formatL16 h hc hq, halfOfCode_of_toNat h.op1_toNat]

end Sys2Proof

namespace Sys2Proof.Machine

/-! ### The 16-bit logic instructions (42_logic16.md R91 to R94) -/

theorem exec_and16 (q : Quals) (a b d : Half) (s : State) :
    exec (.and16 q a b d) s = completeHalf s d (s.readHalf a &&& s.readHalf b) := rfl

theorem exec_or16 (q : Quals) (a b d : Half) (s : State) :
    exec (.or16 q a b d) s = completeHalf s d (s.readHalf a ||| s.readHalf b) := rfl

theorem exec_xor16 (q : Quals) (a b d : Half) (s : State) :
    exec (.xor16 q a b d) s = completeHalf s d (s.readHalf a ^^^ s.readHalf b) := rfl

theorem exec_not16 (q : Quals) (a d : Half) (s : State) :
    exec (.not16 q a d) s = completeHalf s d (~~~(s.readHalf a)) := rfl

/-- Settles O8: `and16` completes into its destination half, and a word of format `L16` with `IC_AND` selects class
AND. -/
theorem and16WritesBitwiseAnd : Obligations.And16WritesBitwiseAnd := by
  refine ⟨fun q a b d s => ?_, fun c _ _ _ _ _ _ hq h => decode_formatL16_of_op1 h (classOf_icAnd c) hq⟩
  rw [exec_and16]
  exact completeHalf_writes s d _

/-- Settles O9: `or16` completes into its destination half, and a word of format `L16` with `IC_OR` selects class OR. -/
theorem or16WritesBitwiseOr : Obligations.Or16WritesBitwiseOr := by
  refine ⟨fun q a b d s => ?_, fun _ _ _ _ _ _ hwf hq h => decode_formatL16_of_op1 h (classOf_icOr hwf) hq⟩
  rw [exec_or16]
  exact completeHalf_writes s d _

/-- Settles O10: `xor16` completes into its destination half, and a word of format `L16` with `IC_XOR` selects class
XOR. -/
theorem xor16WritesBitwiseXor : Obligations.Xor16WritesBitwiseXor := by
  refine ⟨fun q a b d s => ?_, fun _ _ _ _ _ _ hwf hq h => decode_formatL16_of_op1 h (classOf_icXor hwf) hq⟩
  rw [exec_xor16]
  exact completeHalf_writes s d _

/-- Settles O11: `not16` completes into its destination half, and its class drops the `OP1` field, whatever it holds. -/
theorem not16WritesComplement : Obligations.Not16WritesComplement := by
  refine ⟨fun q a d s => ?_, fun _ _ _ _ _ _ hwf hq h => decode_formatL16 h (classOf_icNot hwf) hq⟩
  rw [exec_not16]
  exact completeHalf_writes s d _

end Sys2Proof.Machine

namespace Sys2Proof

/-! ### The shift kind bits of a word of format `S16` (30_encoding.md R53, R60) -/

theorem FormatS16.dirLeft_eq {ic : BitVec 5} {q : Quals} {dirLeft arith : BitVec 1} {op0 op1 op2 : Nat} {w : Word}
    (h : FormatS16 ic q dirLeft arith op0 op1 op2 w) : w.extractLsb' 23 1 = dirLeft := by
  obtain ⟨-, hl, -⟩ := h
  exact hl

theorem FormatS16.arith_eq {ic : BitVec 5} {q : Quals} {dirLeft arith : BitVec 1} {op0 op1 op2 : Nat} {w : Word}
    (h : FormatS16 ic q dirLeft arith op0 op1 op2 w) : w.extractLsb' 22 1 = arith := by
  obtain ⟨-, -, ha, -⟩ := h
  exact ha

end Sys2Proof

namespace Sys2Proof.Machine

/-! ### The 16-bit shift instructions (43_shift16.md R96 to R98) -/

theorem exec_shift16Instr (kind : ShiftKind) (q : Quals) (a b d : Half) (s : State) :
    exec (shift16Instr kind q a b d) s =
      completeHalf s d (shiftResult kind (s.readHalf a) (s.readHalf b).toNat) := by
  cases kind <;> rfl

/-- The effect of the family, of every kind and for every amount (43_shift16.md R95). -/
theorem exec_shift16Instr_writes (kind : ShiftKind) (q : Quals) (a b d : Half) (s : State) :
    ∃ t, exec (shift16Instr kind q a b d) s = .next t ∧
      WritesHalf s t d (shiftResult kind (s.readHalf a) (s.readHalf b).toNat) := by
  rw [exec_shift16Instr]
  exact completeHalf_writes s d _

/-- Settles O12: `shiftra16` completes into its destination half, and bits 23 and 22 of its words select kind `ra`. -/
theorem shiftra16WritesShiftOrFreeValue : Obligations.Shiftra16WritesShiftOrFreeValue := by
  refine ⟨fun q a b d s => ?_, fun _ _ _ _ _ _ hwf hq h =>
    decode_formatS16 h (classOf_icShift hwf) (shiftKind_ra h.dirLeft_eq h.arith_eq) hq⟩
  rw [← shiftResult_ra]
  exact exec_shift16Instr_writes .ra q a b d s

/-- Settles O13: `shiftll16` completes into its destination half, and bits 23 and 22 of its words select kind `ll`. -/
theorem shiftll16WritesShiftOrFreeValue : Obligations.Shiftll16WritesShiftOrFreeValue := by
  refine ⟨fun q a b d s => ?_, fun _ _ _ _ _ _ hwf hq h =>
    decode_formatS16 h (classOf_icShift hwf) (shiftKind_ll h.dirLeft_eq h.arith_eq) hq⟩
  rw [← shiftResult_ll]
  exact exec_shift16Instr_writes .ll q a b d s

/-- Settles O14: `shiftrl16` completes into its destination half, and bits 23 and 22 of its words select kind `rl`. -/
theorem shiftrl16WritesShiftOrFreeValue : Obligations.Shiftrl16WritesShiftOrFreeValue := by
  refine ⟨fun q a b d s => ?_, fun _ _ _ _ _ _ hwf hq h =>
    decode_formatS16 h (classOf_icShift hwf) (shiftKind_rl h.dirLeft_eq h.arith_eq) hq⟩
  rw [← shiftResult_rl]
  exact exec_shift16Instr_writes .rl q a b d s

end Sys2Proof.Machine

namespace Sys2Proof.Machine

/-! ### A recorded step by the outcome of its step (60_exceptions.md R102, R110) -/

theorem stepRecorded_of_next {s t : State} (h : step s = .next t) : stepRecorded s = t := by
  simp [stepRecorded, h]

theorem stepRecorded_of_refused {s : State} {r : Refusal} (h : step s = .refused r) :
    stepRecorded s = s.recordRefusal r := by
  simp [stepRecorded, h]

/-- Settles O36: a refused step is the recording of its reason, an executed one the whole of its instruction. -/
theorem refusedStepChangesNothing : Obligations.RefusedStepChangesNothing := by
  refine ⟨fun s w reason hr hw hd => ?_, fun s w i hr hw hd => ?_⟩
  · have hstep := step_of_undecodable hr hw hd
    rw [stepRecorded_of_refused hstep]
    exact ⟨hstep, rfl, rfl, rfl⟩
  · have hexec := exec_eq i s
    rw [stepRecorded_of_next ((step_of_decode hr hw hd).trans hexec)]
    exact hexec

/-! ### A run of a straight-line program (60_exceptions.md R107) -/

theorem run_succ_of_step_next {s t : State} (h : step s = .next t) (k : Nat) :
    core.run (k + 1) s = core.run k t := by
  change core.step s = .next t at h
  simp [Host.Core.run, h]

theorem run_one (s : State) : core.run 1 s = step s := by
  change core.run 1 s = core.step s
  cases h : core.step s <;> simp [Host.Core.run, h]

/-- What a run that has stopped nowhere comes from. -/
theorem run_succ_next_cases {k : Nat} {s t : State} (h : core.run (k + 1) s = .next t) :
    ∃ u, step s = .next u ∧ core.run k u = .next t := by
  simp only [Host.Core.run] at h
  split at h
  · exact ⟨_, ‹_›, h⟩
  · cases h
  · cases h

/-- The last step of a run is a step of the state that the run before it reached. -/
theorem run_succ_of_run_next {j : Nat} {s t : State} (h : core.run j s = .next t) :
    core.run (j + 1) s = step t := by
  induction j generalizing s with
  | zero =>
    obtain rfl : s = t := Host.Outcome.next.inj h
    exact run_one s
  | succ j ih =>
    obtain ⟨u, hu, hrun⟩ := run_succ_next_cases h
    exact (run_succ_of_step_next hu _).trans (ih hrun)

/-- Which words decode is a matter of the program and the configuration alone. -/
theorem decodableAt_congr {s t : State} (h : t.launch = s.launch) (k : Nat) :
    t.decodableAt k ↔ s.decodableAt k := by
  simp only [State.decodableAt, h]

theorem step_next_of_decodableAt {s : State} (hr : s.refusal = none) (hd : s.decodableAt s.pc) :
    ∃ t, step s = .next t ∧ t.pc = s.pc + 1 ∧ t.refusal = none ∧ t.launch = s.launch := by
  obtain ⟨w, i, hw, hi⟩ := hd
  exact ⟨_, (step_of_decode hr hw hi).trans (exec_eq i s), rfl, hr, rfl⟩

theorem step_refused_of_not_decodableAt {s : State} (hr : s.refusal = none)
    (hpc : s.pc < s.launch.program.length) (hd : ¬ s.decodableAt s.pc) :
    ∃ reason, step s = .refused (.undecodable reason) := by
  have hw : s.fetch = some s.launch.program[s.pc] := List.getElem?_eq_getElem hpc
  cases hi : decode s.launch.config s.launch.program[s.pc] with
  | error reason => exact ⟨reason, step_of_undecodable hr hw hi⟩
  | ok i => exact absurd ⟨_, i, hw, hi⟩ hd

/-- A run goes on through every word that decodes, one word a step. -/
theorem run_next_of_decodableAt {s : State} (k : Nat) (hr : s.refusal = none)
    (hd : ∀ m, m < k → s.decodableAt (s.pc + m)) :
    ∃ t, core.run k s = .next t ∧ t.pc = s.pc + k ∧ t.refusal = none ∧ t.launch = s.launch := by
  induction k generalizing s with
  | zero => exact ⟨s, rfl, rfl, hr, rfl⟩
  | succ k ih =>
    obtain ⟨u, hu, hupc, hur, hul⟩ := step_next_of_decodableAt hr (hd 0 k.succ_pos)
    have hud : ∀ m, m < k → u.decodableAt (u.pc + m) := fun m hm => by
      rw [decodableAt_congr hul, hupc, Nat.add_assoc, Nat.add_comm 1]
      exact hd (m + 1) (Nat.succ_lt_succ hm)
    obtain ⟨t, ht, htpc, htr, htl⟩ := ih hur hud
    exact ⟨t, (run_succ_of_step_next hu k).trans ht, by omega, htr, htl.trans hul⟩

/-- The run of a launch up to a word before which every word decodes. -/
theorem run_launched_of_decodableAt (p : Launch) (regs : AccFile) {k : Nat}
    (hd : ∀ m, m < k → (State.launched p regs).decodableAt m) :
    ∃ t, core.run k (State.launched p regs) = .next t ∧ t.pc = k ∧ t.refusal = none ∧ t.launch = p := by
  simpa using run_next_of_decodableAt k (State.launched_refusal p regs) (by simpa using hd)

/-- No instruction reads `pc`: the same instruction at another `pc` does the same to all else. -/
theorem exec_at_pc {i : Instr} {s t : State} (n : Nat) (h : exec i s = .next t) :
    exec i { s with pc := n } = .next { t with pc := n + 1 } := by
  obtain rfl := (exec_next_iff i s t).mp h
  exact exec_eq i _

/-- Settles O40: a run advances one word a step as long as words decode, and is refused where one does not. -/
theorem everyRunEndsOrIsRefused : Obligations.EveryRunEndsOrIsRefused := by
  refine ⟨fun i s t n h => ⟨(exec_pc_refusal_launch h).1, exec_at_pc n h⟩,
    fun p regs => ⟨fun hall => ?_, fun j hj hbefore hat => ?_⟩⟩
  · obtain ⟨t, hrun, hpc, hr, hl⟩ := run_launched_of_decodableAt p regs hall
    exact ⟨t, hrun, ⟨by rw [hpc, hl], hr⟩, hl⟩
  · obtain ⟨t, hrun, rfl, hr, hl⟩ := run_launched_of_decodableAt p regs hbefore
    rw [← decodableAt_congr (t := t) hl] at hat
    obtain ⟨reason, hstep⟩ := step_refused_of_not_decodableAt hr (by rwa [hl]) hat
    exact ⟨t, reason, hrun, rfl, hstep, (run_succ_of_run_next hrun).trans hstep⟩

end Sys2Proof.Machine


namespace Sys2Proof

/-! ### A word is its fields joined (30_encoding.md R50 to R53) -/

theorem append_fields_l32 (w : Word) :
    w.extractLsb' 30 2 ++ w.extractLsb' 29 1 ++ w.extractLsb' 22 7 ++ w.extractLsb' 21 1 ++ w.extractLsb' 18 3 ++
      w.extractLsb' 17 1 ++ w.extractLsb' 14 3 ++ w.extractLsb' 13 1 ++ w.extractLsb' 10 3 ++ w.extractLsb' 9 1 ++
      w.extractLsb' 4 5 ++ w.extractLsb' 2 2 ++ w.extractLsb' 1 1 ++ w.extractLsb' 0 1 = w := by
  simp only [BitVec.extractLsb'_append_extractLsb'_eq_extractLsb']
  exact BitVec.extractLsb'_eq_self

theorem append_fields_s32 (w : Word) :
    w.extractLsb' 30 2 ++ w.extractLsb' 29 1 ++ w.extractLsb' 24 5 ++ w.extractLsb' 23 1 ++ w.extractLsb' 22 1 ++
      w.extractLsb' 21 1 ++ w.extractLsb' 18 3 ++ w.extractLsb' 17 1 ++ w.extractLsb' 13 4 ++ w.extractLsb' 10 3 ++
      w.extractLsb' 9 1 ++ w.extractLsb' 4 5 ++ w.extractLsb' 2 2 ++ w.extractLsb' 1 1 ++ w.extractLsb' 0 1 = w := by
  simp only [BitVec.extractLsb'_append_extractLsb'_eq_extractLsb']
  exact BitVec.extractLsb'_eq_self

theorem append_fields_l16 (w : Word) :
    w.extractLsb' 30 2 ++ w.extractLsb' 29 1 ++ w.extractLsb' 22 7 ++ w.extractLsb' 21 1 ++ w.extractLsb' 17 4 ++
      w.extractLsb' 13 4 ++ w.extractLsb' 9 4 ++ w.extractLsb' 4 5 ++ w.extractLsb' 2 2 ++ w.extractLsb' 1 1 ++
      w.extractLsb' 0 1 = w := by
  simp only [BitVec.extractLsb'_append_extractLsb'_eq_extractLsb']
  exact BitVec.extractLsb'_eq_self

theorem append_fields_s16 (w : Word) :
    w.extractLsb' 30 2 ++ w.extractLsb' 29 1 ++ w.extractLsb' 24 5 ++ w.extractLsb' 23 1 ++ w.extractLsb' 22 1 ++
      w.extractLsb' 21 1 ++ w.extractLsb' 17 4 ++ w.extractLsb' 13 4 ++ w.extractLsb' 9 4 ++ w.extractLsb' 4 5 ++
      w.extractLsb' 2 2 ++ w.extractLsb' 1 1 ++ w.extractLsb' 0 1 = w := by
  simp only [BitVec.extractLsb'_append_extractLsb'_eq_extractLsb']
  exact BitVec.extractLsb'_eq_self

/-- Bits 28 to 22 of a logic word are the bits that no format names and the two bits of the shift kind. -/
theorem extract_unlisted {w : Word} (h24 : w.extractLsb' 24 5 = 0#5) (h22 : w.extractLsb' 22 2 = 0#2) :
    w.extractLsb' 22 7 = 0#7 := by
  have hsplit : w.extractLsb' 24 5 ++ w.extractLsb' 22 2 = w.extractLsb' 22 7 := by
    simp only [BitVec.extractLsb'_append_extractLsb'_eq_extractLsb']
  rw [← hsplit, h24, h22]
  rfl

/-! Each layout of the encoder is the one word of its format table. -/

theorem eq_wordL32_iff {w : Word} {ic : BitVec 5} {q : Quals} {op2 op1 op0 : BitVec 3} :
    w = wordL32 ic q op2 op1 op0 ↔ FormatL32 ic q op0.toNat op1.toNat op2.toNat w := by
  refine ⟨fun h => h ▸ wordL32_format .., fun h => ?_⟩
  obtain ⟨⟨h1, h2, h3, h4, h5, h6, h7⟩, h8, h9, h10, h11, h12, h13, h14, h15⟩ := h
  rw [BitVec.toNat_inj] at h10 h12 h14
  conv_lhs => rw [← append_fields_l32 w, extract_unlisted h3 h8]
  rw [h1, h2, h4, h5, h6, h7, h9, h10, h11, h12, h13, h14, h15]
  rfl

theorem eq_wordS32_iff {w : Word} {ic : BitVec 5} {q : Quals} {dirLeft arith : BitVec 1} {op2 : BitVec 3}
    {op1 : BitVec 4} {op0 : BitVec 3} :
    w = wordS32 ic q dirLeft arith op2 op1 op0 ↔ FormatS32 ic q dirLeft arith op0.toNat op1.toNat op2.toNat w := by
  refine ⟨fun h => h ▸ wordS32_format .., fun h => ?_⟩
  obtain ⟨⟨h1, h2, h3, h4, h5, h6, h7⟩, h8, h9, h10, h11, h12, h13, h14, h15⟩ := h
  rw [BitVec.toNat_inj] at h11 h13 h14
  conv_lhs => rw [← append_fields_s32 w]
  rw [h1, h2, h3, h4, h5, h6, h7, h8, h9, h10, h11, h12, h13, h14, h15]
  rfl

theorem eq_wordL16_iff {w : Word} {ic : BitVec 5} {q : Quals} {op2 op1 op0 : BitVec 4} :
    w = wordL16 ic q op2 op1 op0 ↔ FormatL16 ic q op0.toNat op1.toNat op2.toNat w := by
  refine ⟨fun h => h ▸ wordL16_format .., fun h => ?_⟩
  obtain ⟨⟨h1, h2, h3, h4, h5, h6, h7⟩, h8, h9, h10, h11, h12⟩ := h
  rw [BitVec.toNat_inj] at h10 h11 h12
  conv_lhs => rw [← append_fields_l16 w, extract_unlisted h3 h8]
  rw [h1, h2, h4, h5, h6, h7, h9, h10, h11, h12]
  rfl

theorem eq_wordS16_iff {w : Word} {ic : BitVec 5} {q : Quals} {dirLeft arith : BitVec 1} {op2 op1 op0 : BitVec 4} :
    w = wordS16 ic q dirLeft arith op2 op1 op0 ↔ FormatS16 ic q dirLeft arith op0.toNat op1.toNat op2.toNat w := by
  refine ⟨fun h => h ▸ wordS16_format .., fun h => ?_⟩
  obtain ⟨⟨h1, h2, h3, h4, h5, h6, h7⟩, h8, h9, h10, h11, h12, h13⟩ := h
  rw [BitVec.toNat_inj] at h11 h12 h13
  conv_lhs => rw [← append_fields_s16 w]
  rw [h1, h2, h3, h4, h5, h6, h7, h8, h9, h10, h11, h12, h13]
  rfl

/-! ### Masked words (30_encoding.md section 7) -/

/-! The fields of a mask that are all ones, written as the numerals they evaluate to. -/

theorem and_ones1 (x : BitVec 1) : x &&& 1#1 = x := BitVec.and_allOnes
theorem and_ones2 (x : BitVec 2) : x &&& 3#2 = x := BitVec.and_allOnes
theorem and_ones3 (x : BitVec 3) : x &&& 7#3 = x := BitVec.and_allOnes
theorem and_ones4 (x : BitVec 4) : x &&& 15#4 = x := BitVec.and_allOnes
theorem and_ones5 (x : BitVec 5) : x &&& 31#5 = x := BitVec.and_allOnes

/-! A masked word is the word of a row with zeros for its free fields, if and only if it has the row's fixed fields. -/

theorem masked_l32_iff (w : Word) (ic : BitVec 5) :
    w &&& 0x1FE223FE#32 = wordL32 ic ⟨0#2, 0#1, 0#1⟩ 0#3 0#3 0#3 ↔
      w = wordL32 ic (qualsOf w) (w.extractLsb' 18 3) (w.extractLsb' 14 3) (w.extractLsb' 10 3) := by
  rw [eq_wordL32_iff, eq_wordL32_iff]
  simp only [FormatL32, CommonBits, BitVec.toNat_inj, BitVec.extractLsb'_and]
  simp [and_ones1, and_ones2, and_ones5, qualsOf]

theorem masked_s32_iff (w : Word) (ic : BitVec 5) (dirLeft arith : BitVec 1) :
    w &&& 0x1FE203FE#32 = wordS32 ic ⟨0#2, 0#1, 0#1⟩ dirLeft arith 0#3 0#4 0#3 ↔
      w = wordS32 ic (qualsOf w) dirLeft arith (w.extractLsb' 18 3) (w.extractLsb' 13 4) (w.extractLsb' 10 3) := by
  rw [eq_wordS32_iff, eq_wordS32_iff]
  simp only [FormatS32, CommonBits, BitVec.toNat_inj, BitVec.extractLsb'_and]
  simp [and_ones1, and_ones2, and_ones5, qualsOf]

theorem masked_l16_iff (w : Word) (ic : BitVec 5) :
    w &&& 0x1FE001FE#32 = wordL16 ic ⟨0#2, 0#1, 0#1⟩ 0#4 0#4 0#4 ↔
      w = wordL16 ic (qualsOf w) (w.extractLsb' 17 4) (w.extractLsb' 13 4) (w.extractLsb' 9 4) := by
  rw [eq_wordL16_iff, eq_wordL16_iff]
  simp only [FormatL16, CommonBits, BitVec.toNat_inj, BitVec.extractLsb'_and]
  simp [and_ones1, and_ones2, and_ones5, qualsOf]

theorem masked_s16_iff (w : Word) (ic : BitVec 5) (dirLeft arith : BitVec 1) :
    w &&& 0x1FE001FE#32 = wordS16 ic ⟨0#2, 0#1, 0#1⟩ dirLeft arith 0#4 0#4 0#4 ↔
      w = wordS16 ic (qualsOf w) dirLeft arith (w.extractLsb' 17 4) (w.extractLsb' 13 4) (w.extractLsb' 9 4) := by
  rw [eq_wordS16_iff, eq_wordS16_iff]
  simp only [FormatS16, CommonBits, BitVec.toNat_inj, BitVec.extractLsb'_and]
  simp [and_ones1, and_ones2, and_ones5, qualsOf]

/-- The words that become a NOT's canonical word when bits 16 to 14 are cleared. -/
theorem masked_not32_iff (w : Word) (ic : BitVec 5) (q : Quals) (op2 op0 : BitVec 3) :
    w &&& 0xFFFE3FFF#32 = wordL32 ic q op2 0#3 op0 ↔ ∃ op1, w = wordL32 ic q op2 op1 op0 := by
  have hown : w &&& 0xFFFE3FFF#32 = wordL32 ic q op2 0#3 op0 ↔ w = wordL32 ic q op2 (w.extractLsb' 14 3) op0 := by
    rw [eq_wordL32_iff, eq_wordL32_iff]
    simp only [FormatL32, CommonBits, BitVec.toNat_inj, BitVec.extractLsb'_and]
    simp [and_ones1, and_ones2, and_ones3, and_ones5]
  refine hown.trans ⟨fun h => ⟨_, h⟩, fun ⟨op1, h⟩ => ?_⟩
  have hop1 : w.extractLsb' 14 3 = op1 := BitVec.eq_of_toNat_eq (eq_wordL32_iff.mp h).op1_toNat
  rwa [hop1]

/-- The words that become a NOT's canonical word when bits 16 to 13 are cleared. -/
theorem masked_not16_iff (w : Word) (ic : BitVec 5) (q : Quals) (op2 op0 : BitVec 4) :
    w &&& 0xFFFE1FFF#32 = wordL16 ic q op2 0#4 op0 ↔ ∃ op1, w = wordL16 ic q op2 op1 op0 := by
  have hown : w &&& 0xFFFE1FFF#32 = wordL16 ic q op2 0#4 op0 ↔ w = wordL16 ic q op2 (w.extractLsb' 13 4) op0 := by
    rw [eq_wordL16_iff, eq_wordL16_iff]
    simp only [FormatL16, CommonBits, BitVec.toNat_inj, BitVec.extractLsb'_and]
    simp [and_ones1, and_ones2, and_ones4, and_ones5]
  refine hown.trans ⟨fun h => ⟨_, h⟩, fun ⟨op1, h⟩ => ?_⟩
  have hop1 : w.extractLsb' 13 4 = op1 := BitVec.eq_of_toNat_eq (eq_wordL16_iff.mp h).op1_toNat
  rwa [hop1]

/-! ### The fourteen rows of the opcode table, and the words of a row -/

/-- The `IC` parameter of a class (30_encoding.md R58). -/
def Config.icOf (c : Config) : OpClass → BitVec 5
  | .logic .and => c.icAnd
  | .logic .or => c.icOr
  | .logic .xor => c.icXor
  | .logic .not => c.icNot
  | .shift => c.icShift

theorem eq_icOf_of_classOf {c : Config} {ic : BitVec 5} {k : OpClass} (h : classOf c ic = some k) : ic = c.icOf k := by
  unfold classOf at h
  split_ifs at h with h1 h2 h3 h4 h5 <;> cases h
  exacts [h1, h2, h3, h4, h5]

theorem classOf_icOf {c : Config} (h : c.wf) : ∀ k, classOf c (c.icOf k) = some k
  | .logic .and => classOf_icAnd c
  | .logic .or => classOf_icOr h
  | .logic .xor => classOf_icXor h
  | .logic .not => classOf_icNot h
  | .shift => classOf_icShift h

/-- `ShiftDirLeft` of a shift kind (30_encoding.md R60). -/
def ShiftKind.dirLeft : ShiftKind → BitVec 1
  | .ra => 0#1
  | .ll => 1#1
  | .rl => 0#1

/-- `ShiftArith` of a shift kind (30_encoding.md R60). -/
def ShiftKind.arith : ShiftKind → BitVec 1
  | .ra => 1#1
  | .ll => 0#1
  | .rl => 0#1

theorem shiftKindOf_iff {w : Word} {kind : ShiftKind} :
    shiftKindOf (w.extractLsb' 22 2) = some kind ↔
      w.extractLsb' 23 1 = kind.dirLeft ∧ w.extractLsb' 22 1 = kind.arith := by
  rw [extract_pair]
  generalize w.extractLsb' 23 1 = l
  generalize w.extractLsb' 22 1 = a
  revert l a
  cases kind <;> decide

/-- A row of the opcode table: a format with what selects the instruction in it. -/
inductive Opcode where
  | logic32 (op : LogicOp)
  | logic16 (op : LogicOp)
  | shift32 (kind : ShiftKind)
  | shift16 (kind : ShiftKind)

/-- The class of a row. -/
def Opcode.opClass : Opcode → OpClass
  | .logic32 op => .logic op
  | .logic16 op => .logic op
  | .shift32 _ => .shift
  | .shift16 _ => .shift

/-- The bits that a row fixes (30_encoding.md section 7, column "mask"). -/
def Opcode.mask : Opcode → Word
  | .logic32 _ => 0x1FE223FE#32
  | .logic16 _ => 0x1FE001FE#32
  | .shift32 _ => 0x1FE203FE#32
  | .shift16 _ => 0x1FE001FE#32

/-- The value of the bits that a row fixes (30_encoding.md section 7, column "match"). -/
def Opcode.base (c : Config) : Opcode → Word
  | .logic32 op => wordL32 (c.icOf (.logic op)) ⟨0#2, 0#1, 0#1⟩ 0#3 0#3 0#3
  | .logic16 op => wordL16 (c.icOf (.logic op)) ⟨0#2, 0#1, 0#1⟩ 0#4 0#4 0#4
  | .shift32 kind => wordS32 c.icShift ⟨0#2, 0#1, 0#1⟩ kind.dirLeft kind.arith 0#3 0#4 0#3
  | .shift16 kind => wordS16 c.icShift ⟨0#2, 0#1, 0#1⟩ kind.dirLeft kind.arith 0#4 0#4 0#4

/-- All that an accepted word says: its row, its qualifier fields and its operand fields, the `OP1` field of a NOT
among them. -/
inductive WordFields where
  | logic32 (op : LogicOp) (q : Quals) (a b d : Acc)
  | logic16 (op : LogicOp) (q : Quals) (a b d : Half)
  | shift32 (kind : ShiftKind) (q : Quals) (a : Acc) (b : Half) (d : Acc)
  | shift16 (kind : ShiftKind) (q : Quals) (a b d : Half)

namespace WordFields

def opcode : WordFields → Opcode
  | .logic32 op _ _ _ _ => .logic32 op
  | .logic16 op _ _ _ _ => .logic16 op
  | .shift32 kind _ _ _ _ => .shift32 kind
  | .shift16 kind _ _ _ _ => .shift16 kind

def quals : WordFields → Quals
  | .logic32 _ q _ _ _ => q
  | .logic16 _ q _ _ _ => q
  | .shift32 _ q _ _ _ => q
  | .shift16 _ q _ _ _ => q

/-- The word that holds the fields. -/
def word (c : Config) : WordFields → Word
  | .logic32 op q a b d => wordL32 (c.icOf (.logic op)) q d.code b.code a.code
  | .logic16 op q a b d => wordL16 (c.icOf (.logic op)) q d.code b.code a.code
  | .shift32 kind q a b d => wordS32 c.icShift q kind.dirLeft kind.arith d.code b.code a.code
  | .shift16 kind q a b d => wordS16 c.icShift q kind.dirLeft kind.arith d.code b.code a.code

/-- The instruction that the fields decode to; a NOT drops its `OP1` field. -/
def instr : WordFields → Instr
  | .logic32 op q a b d => logic32Instr op q a b d
  | .logic16 op q a b d => logic16Instr op q a b d
  | .shift32 kind q a b d => shift32Instr kind q a b d
  | .shift16 kind q a b d => shift16Instr kind q a b d

end WordFields

/-- The fields of a word, read by the format of a row. -/
def Opcode.fieldsOf (w : Word) : Opcode → WordFields
  | .logic32 op => .logic32 op (qualsOf w) (accOfCode (w.extractLsb' 10 3)) (accOfCode (w.extractLsb' 14 3))
      (accOfCode (w.extractLsb' 18 3))
  | .logic16 op => .logic16 op (qualsOf w) (halfOfCode (w.extractLsb' 9 4)) (halfOfCode (w.extractLsb' 13 4))
      (halfOfCode (w.extractLsb' 17 4))
  | .shift32 kind => .shift32 kind (qualsOf w) (accOfCode (w.extractLsb' 10 3)) (halfOfCode (w.extractLsb' 13 4))
      (accOfCode (w.extractLsb' 18 3))
  | .shift16 kind => .shift16 kind (qualsOf w) (halfOfCode (w.extractLsb' 9 4)) (halfOfCode (w.extractLsb' 13 4))
      (halfOfCode (w.extractLsb' 17 4))

@[simp] theorem Opcode.fieldsOf_opcode (o : Opcode) (w : Word) : (o.fieldsOf w).opcode = o := by cases o <;> rfl

@[simp] theorem Opcode.fieldsOf_quals (o : Opcode) (w : Word) : (o.fieldsOf w).quals = qualsOf w := by cases o <;> rfl

@[simp] theorem WordFields.instr_quals (f : WordFields) : f.instr.quals = f.quals := by
  cases f with
  | logic32 => exact logic32Instr_quals ..
  | logic16 => exact logic16Instr_quals ..
  | shift32 => exact shift32Instr_quals ..
  | shift16 => exact shift16Instr_quals ..

/-- A word is of a row if and only if it is joined from the fields that the row reads from it. -/
theorem Opcode.masked_iff (c : Config) (o : Opcode) (w : Word) :
    w &&& o.mask = o.base c ↔ (o.fieldsOf w).word c = w := by
  rw [eq_comm (b := w)]
  cases o <;> simp only [fieldsOf, WordFields.word, code_accOfCode, code_halfOfCode]
  case logic32 => exact masked_l32_iff w _
  case logic16 => exact masked_l16_iff w _
  case shift32 => exact masked_s32_iff w _ _ _
  case shift16 => exact masked_s16_iff w _ _ _

/-! ### The decoder and the rows -/

theorem word_commonBits (c : Config) : ∀ f : WordFields, CommonBits (c.icOf f.opcode.opClass) f.quals (f.word c)
  | .logic32 .. => (wordL32_format ..).1
  | .logic16 .. => (wordL16_format ..).1
  | .shift32 .. => (wordS32_format ..).1
  | .shift16 .. => (wordS16_format ..).1

theorem qualsOf_word (c : Config) (f : WordFields) : qualsOf (f.word c) = f.quals :=
  qualsOf_of_commonBits (word_commonBits c f)

theorem word_ic (c : Config) (f : WordFields) : (f.word c).extractLsb' 4 5 = c.icOf f.opcode.opClass := by
  obtain ⟨-, -, -, hic, -⟩ := word_commonBits c f
  exact hic

/-- A word joined from fields decodes to their instruction, when its `IC` value selects the class of its row. -/
theorem decode_word {c : Config} {f : WordFields} (hc : classOf c (c.icOf f.opcode.opClass) = some f.opcode.opClass)
    (hq : c.admits f.quals = true) : decode c (f.word c) = .ok f.instr := by
  cases f with
  | logic32 op q a b d =>
    have h := wordL32_format (c.icOf (.logic op)) q d.code b.code a.code
    simp only [Acc.code_toNat] at h
    exact decode_formatL32_of_op1 h hc hq
  | logic16 op q a b d =>
    have h := wordL16_format (c.icOf (.logic op)) q d.code b.code a.code
    simp only [Half.code_toNat] at h
    exact decode_formatL16_of_op1 h hc hq
  | shift32 kind q a b d =>
    have h := wordS32_format c.icShift q kind.dirLeft kind.arith d.code b.code a.code
    simp only [Acc.code_toNat, Half.code_toNat] at h
    exact decode_formatS32 h hc (shiftKindOf_iff.mpr ⟨h.dirLeft_eq, h.arith_eq⟩) hq
  | shift16 kind q a b d =>
    have h := wordS16_format c.icShift q kind.dirLeft kind.arith d.code b.code a.code
    simp only [Half.code_toNat] at h
    exact decode_formatS16 h hc (shiftKindOf_iff.mpr ⟨h.dirLeft_eq, h.arith_eq⟩) hq

theorem bit_eq_zero_of_ne_one {x : BitVec 1} (h : ¬ x = 1#1) : x = 0#1 :=
  (BitVec.eq_zero_or_eq_one x).resolve_right h

/-- What a logic word that the decoder accepts is joined from. -/
theorem decodeLogic_cases {c : Config} {op : LogicOp} {w : Word} {i : Instr}
    (hw : CommonBits (c.icOf (.logic op)) (qualsOf w) w) (h : decodeLogic op w = .ok i) :
    ∃ o : Opcode, o.opClass = .logic op ∧ (o.fieldsOf w).word c = w ∧ (o.fieldsOf w).instr = i := by
  unfold decodeLogic at h
  split_ifs at h with h22 h21 hun <;> cases h <;> rw [not_not] at h22
  · refine ⟨.logic16 op, rfl, ?_, rfl⟩
    simp only [Opcode.fieldsOf, WordFields.word, code_halfOfCode]
    exact (eq_wordL16_iff.mpr ⟨hw, h22, h21, rfl, rfl, rfl⟩).symm
  · obtain ⟨h17, h13, h9⟩ := by simpa only [not_or] using hun
    refine ⟨.logic32 op, rfl, ?_, rfl⟩
    simp only [Opcode.fieldsOf, WordFields.word, code_accOfCode]
    exact (eq_wordL32_iff.mpr ⟨hw, h22, bit_eq_zero_of_ne_one h21, rfl, bit_eq_zero_of_ne_one h17, rfl,
      bit_eq_zero_of_ne_one h13, rfl, bit_eq_zero_of_ne_one h9⟩).symm

/-- What a shift word that the decoder accepts is joined from. -/
theorem decodeShift_cases {c : Config} {w : Word} {i : Instr} (hw : CommonBits c.icShift (qualsOf w) w)
    (h : decodeShift w = .ok i) :
    ∃ o : Opcode, o.opClass = .shift ∧ (o.fieldsOf w).word c = w ∧ (o.fieldsOf w).instr = i := by
  unfold decodeShift at h
  cases hk : shiftKindOf (w.extractLsb' 22 2) with
  | none => simp [hk] at h
  | some kind =>
    obtain ⟨hl, ha⟩ := shiftKindOf_iff.mp hk
    simp only [hk] at h
    split_ifs at h with h21 hun <;> cases h
    · refine ⟨.shift16 kind, rfl, ?_, rfl⟩
      simp only [Opcode.fieldsOf, WordFields.word, code_halfOfCode]
      exact (eq_wordS16_iff.mpr ⟨hw, hl, ha, h21, rfl, rfl, rfl⟩).symm
    · obtain ⟨h17, h9⟩ := by simpa only [not_or] using hun
      refine ⟨.shift32 kind, rfl, ?_, rfl⟩
      simp only [Opcode.fieldsOf, WordFields.word, code_accOfCode, code_halfOfCode]
      exact (eq_wordS32_iff.mpr ⟨hw, hl, ha, bit_eq_zero_of_ne_one h21, rfl, bit_eq_zero_of_ne_one h17, rfl, rfl,
        bit_eq_zero_of_ne_one h9⟩).symm

/-- Every word that the decoder accepts is of a row of the opcode table, and decodes to the instruction of the fields
that the row reads from it. -/
theorem decode_cases {c : Config} {w : Word} {i : Instr} (h : decode c w = .ok i) :
    ∃ o : Opcode, (o.fieldsOf w).word c = w ∧ (o.fieldsOf w).instr = i ∧ c.admits (qualsOf w) = true ∧
      classOf c (c.icOf o.opClass) = some o.opClass := by
  obtain ⟨h1, h2, h24, hq, k, hk, hd⟩ := (decode_ok_iff c w i).mp h
  have hic := eq_icOf_of_classOf hk
  have hw : CommonBits (c.icOf k) (qualsOf w) w := ⟨rfl, rfl, h24, hic, h2, h1, rfl⟩
  rw [hic] at hk
  cases k with
  | logic op =>
    obtain ⟨o, ho, hword, hi⟩ := decodeLogic_cases hw hd
    exact ⟨o, hword, hi, hq, by rw [ho, hk]⟩
  | shift =>
    obtain ⟨o, ho, hword, hi⟩ := decodeShift_cases hw hd
    exact ⟨o, hword, hi, hq, by rw [ho, hk]⟩

/-- The row of an instruction. -/
def Instr.opcode : Instr → Opcode
  | .and32 .. => .logic32 .and
  | .or32 .. => .logic32 .or
  | .xor32 .. => .logic32 .xor
  | .not32 .. => .logic32 .not
  | .shiftra32 .. => .shift32 .ra
  | .shiftll32 .. => .shift32 .ll
  | .shiftrl32 .. => .shift32 .rl
  | .and16 .. => .logic16 .and
  | .or16 .. => .logic16 .or
  | .xor16 .. => .logic16 .xor
  | .not16 .. => .logic16 .not
  | .shiftra16 .. => .shift16 .ra
  | .shiftll16 .. => .shift16 .ll
  | .shiftrl16 .. => .shift16 .rl

@[simp] theorem WordFields.instr_opcode (f : WordFields) : f.instr.opcode = f.opcode := by
  cases f with
  | logic32 op | logic16 op => cases op <;> rfl
  | shift32 kind | shift16 kind => cases kind <;> rfl

theorem decode_of_masked {c : Config} (hwf : c.wf) (hadm : ∀ q, c.admits q = true) {o : Opcode} {w : Word}
    (h : w &&& o.mask = o.base c) : decode c w = .ok (o.fieldsOf w).instr := by
  have hd := decode_word (f := o.fieldsOf w) (classOf_icOf hwf _) (hadm _)
  rwa [(o.masked_iff c w).mp h] at hd

theorem masked_of_decode {c : Config} {w : Word} {i : Instr} (h : decode c w = .ok i) :
    w &&& i.opcode.mask = i.opcode.base c := by
  obtain ⟨o, hword, rfl, -⟩ := decode_cases h
  rw [WordFields.instr_opcode, Opcode.fieldsOf_opcode]
  exact (o.masked_iff c w).mpr hword

theorem default_wf : Config.default.wf := by decide

theorem default_admits (q : Quals) : Config.default.admits q = true := by
  obtain ⟨pr, t, p⟩ := q
  revert pr t p
  decide

/-- Settles O23: the mask and match of each row are the fixed fields of its format, with the default `IC` values. -/
theorem decoderAgreesWithTheOpcodeTable : Obligations.DecoderAgreesWithTheOpcodeTable := by
  intro w
  have hmask (o : Opcode) := @decode_of_masked _ default_wf default_admits o w
  exact ⟨⟨fun ⟨_, _, _, _, h⟩ => masked_of_decode h, fun h => ⟨_, _, _, _, hmask (.logic32 .and) h⟩⟩,
    ⟨fun ⟨_, _, _, _, h⟩ => masked_of_decode h, fun h => ⟨_, _, _, _, hmask (.logic32 .or) h⟩⟩,
    ⟨fun ⟨_, _, _, _, h⟩ => masked_of_decode h, fun h => ⟨_, _, _, _, hmask (.logic32 .xor) h⟩⟩,
    ⟨fun ⟨_, _, _, h⟩ => masked_of_decode h, fun h => ⟨_, _, _, hmask (.logic32 .not) h⟩⟩,
    ⟨fun ⟨_, _, _, _, h⟩ => masked_of_decode h, fun h => ⟨_, _, _, _, hmask (.shift32 .ra) h⟩⟩,
    ⟨fun ⟨_, _, _, _, h⟩ => masked_of_decode h, fun h => ⟨_, _, _, _, hmask (.shift32 .ll) h⟩⟩,
    ⟨fun ⟨_, _, _, _, h⟩ => masked_of_decode h, fun h => ⟨_, _, _, _, hmask (.shift32 .rl) h⟩⟩,
    ⟨fun ⟨_, _, _, _, h⟩ => masked_of_decode h, fun h => ⟨_, _, _, _, hmask (.logic16 .and) h⟩⟩,
    ⟨fun ⟨_, _, _, _, h⟩ => masked_of_decode h, fun h => ⟨_, _, _, _, hmask (.logic16 .or) h⟩⟩,
    ⟨fun ⟨_, _, _, _, h⟩ => masked_of_decode h, fun h => ⟨_, _, _, _, hmask (.logic16 .xor) h⟩⟩,
    ⟨fun ⟨_, _, _, h⟩ => masked_of_decode h, fun h => ⟨_, _, _, hmask (.logic16 .not) h⟩⟩,
    ⟨fun ⟨_, _, _, _, h⟩ => masked_of_decode h, fun h => ⟨_, _, _, _, hmask (.shift16 .ra) h⟩⟩,
    ⟨fun ⟨_, _, _, _, h⟩ => masked_of_decode h, fun h => ⟨_, _, _, _, hmask (.shift16 .ll) h⟩⟩,
    ⟨fun ⟨_, _, _, _, h⟩ => masked_of_decode h, fun h => ⟨_, _, _, _, hmask (.shift16 .rl) h⟩⟩⟩

end Sys2Proof

namespace Sys2Proof

/-! ### The round trips of the decoder and the encoder (30_encoding.md section 6) -/

/-- The fields that the encoder writes; the `OP1` field of a NOT is 0 (30_encoding.md R67). -/
def Instr.fields : Instr → WordFields
  | .and32 q a b d => .logic32 .and q a b d
  | .or32 q a b d => .logic32 .or q a b d
  | .xor32 q a b d => .logic32 .xor q a b d
  | .not32 q a d => .logic32 .not q a .acc0 d
  | .shiftra32 q a b d => .shift32 .ra q a b d
  | .shiftll32 q a b d => .shift32 .ll q a b d
  | .shiftrl32 q a b d => .shift32 .rl q a b d
  | .and16 q a b d => .logic16 .and q a b d
  | .or16 q a b d => .logic16 .or q a b d
  | .xor16 q a b d => .logic16 .xor q a b d
  | .not16 q a d => .logic16 .not q a ⟨.acc0, .l⟩ d
  | .shiftra16 q a b d => .shift16 .ra q a b d
  | .shiftll16 q a b d => .shift16 .ll q a b d
  | .shiftrl16 q a b d => .shift16 .rl q a b d

@[simp] theorem Instr.fields_instr (i : Instr) : i.fields.instr = i := by cases i <;> rfl

@[simp] theorem Instr.fields_quals (i : Instr) : i.fields.quals = i.quals := by cases i <;> rfl

theorem encode_eq_word (c : Config) (i : Instr) : encode c i = i.fields.word c := by cases i <;> rfl

/-- Settles O21: the canonical word is joined from the instruction's own fields. -/
theorem decodeOfEncodeIsTheInstruction : Obligations.DecodeOfEncodeIsTheInstruction := by
  intro c i hwf hi
  rw [encode_eq_word]
  simpa using decode_word (f := i.fields) (classOf_icOf hwf _) (by rwa [Instr.fields_quals])

/-- The canonical word of the instruction that fields decode to is the word joined from them, but for the `OP1` field of
a NOT. -/
theorem encode_instr (c : Config) (f : WordFields) : encode c f.instr = canonicalWord f.instr (f.word c) := by
  cases f with
  | logic32 op q a b d =>
    cases op with
    | and | or | xor => rfl
    | not => exact ((masked_not32_iff _ _ _ _ _).mpr ⟨_, rfl⟩).symm
  | logic16 op q a b d =>
    cases op with
    | and | or | xor => rfl
    | not => exact ((masked_not16_iff _ _ _ _ _).mpr ⟨_, rfl⟩).symm
  | shift32 kind => cases kind <;> rfl
  | shift16 kind => cases kind <;> rfl

/-- Settles O22: an accepted word is joined from the fields its row reads, and the encoder writes the same ones. -/
theorem encodeOfDecodeIsTheCanonicalWord : Obligations.EncodeOfDecodeIsTheCanonicalWord := by
  intro c w i h
  obtain ⟨o, hword, rfl, hq, -⟩ := decode_cases h
  refine ⟨?_, by rwa [Instr.wf, decode_quals h]⟩
  rw [encode_instr, hword]

/-- A word that becomes an instruction's canonical word, once the `OP1` field of a NOT is cleared, holds fields of that
instruction. -/
theorem exists_fields_of_canonicalWord {c : Config} {f : WordFields} {w : Word}
    (h : canonicalWord f.instr w = encode c f.instr) : ∃ f' : WordFields, f'.word c = w ∧ f'.instr = f.instr := by
  rw [encode_instr] at h
  have hsame (hw : f.word c = w) : ∃ f' : WordFields, f'.word c = w ∧ f'.instr = f.instr := ⟨f, hw, rfl⟩
  cases f with
  | logic32 op q a b d =>
    cases op with
    | and | or | xor => exact hsame h.symm
    | not =>
      obtain ⟨op1, rfl⟩ := (masked_not32_iff w _ _ _ _).mp (h.trans (encode_instr c (.logic32 .not q a b d)).symm)
      exact ⟨.logic32 .not q a (accOfCode op1) d, by simp [WordFields.word, Config.icOf], rfl⟩
  | logic16 op q a b d =>
    cases op with
    | and | or | xor => exact hsame h.symm
    | not =>
      obtain ⟨op1, rfl⟩ := (masked_not16_iff w _ _ _ _).mp (h.trans (encode_instr c (.logic16 .not q a b d)).symm)
      exact ⟨.logic16 .not q a (halfOfCode op1) d, by simp [WordFields.word, Config.icOf], rfl⟩
  | shift32 kind => cases kind <;> exact hsame h.symm
  | shift16 kind => cases kind <;> exact hsame h.symm

/-- Settles O20: both words hold fields of the same instruction, so the same row, class and qualifiers. -/
theorem notIgnoresItsOp1Field : Obligations.NotIgnoresItsOp1Field := by
  intro c w w' i h hcan
  have henc := (encodeOfDecodeIsTheCanonicalWord c w i h).1
  obtain ⟨o, -, rfl, hq, hc⟩ := decode_cases h
  obtain ⟨f', rfl, hinstr⟩ := exists_fields_of_canonicalWord (hcan.trans henc.symm)
  have ho : f'.opcode = o := by simpa using congrArg Instr.opcode hinstr
  have hquals : f'.quals = qualsOf w := by simpa using congrArg Instr.quals hinstr
  rw [← hinstr]
  exact decode_word (by rw [ho, hc]) (by rw [hquals, hq])

/-! ### The qualifier fields (30_encoding.md section 5) -/

section
variable {w w' : Word} (hb : w'.extractLsb' 1 28 = w.extractLsb' 1 28)
include hb

theorem getLsbD_of_body {k : Nat} (hk : 1 ≤ k) (hk' : k < 29) : w'.getLsbD k = w.getLsbD k := by
  have h := congrArg (·.getLsbD (k - 1)) hb
  have h28 : k - 1 < 28 := by omega
  simpa [h28, Nat.add_sub_cancel' hk] using h

theorem extract_of_body {k n : Nat} (hk : 1 ≤ k) (hn : k + n ≤ 29) : w'.extractLsb' k n = w.extractLsb' k n := by
  apply BitVec.eq_of_getLsbD_eq
  intro j hj
  simp only [BitVec.getLsbD_extractLsb', getLsbD_of_body hb (k := k + j) (by omega) (by omega)]

theorem masked_of_body (o : Opcode) : w' &&& o.mask = w &&& o.mask := by
  have hcommon : w' &&& 0x1FFFFFFE#32 = w &&& 0x1FFFFFFE#32 := by
    apply BitVec.eq_of_getLsbD_eq
    intro k hk
    by_cases hin : 1 ≤ k ∧ k < 29
    · rw [BitVec.getLsbD_and, BitVec.getLsbD_and, getLsbD_of_body hb hin.1 hin.2]
    · obtain rfl | rfl | rfl | rfl : k = 0 ∨ k = 29 ∨ k = 30 ∨ k = 31 := by omega
      all_goals simp
  have hmask : o.mask = 0x1FFFFFFE#32 &&& o.mask := by
    cases o <;> simp only [Opcode.mask] <;> decide
  rw [hmask, ← BitVec.and_assoc, ← BitVec.and_assoc, hcommon]

theorem fieldsOf_instr_of_body (o : Opcode) :
    (o.fieldsOf w').instr = (o.fieldsOf w).instr.withQuals (qualsOf w') := by
  have hf {k n : Nat} (hk : 1 ≤ k) (hn : k + n ≤ 29) := extract_of_body hb hk hn
  cases o <;> simp only [Opcode.fieldsOf, hf, Nat.reduceLeDiff, Nat.reduceAdd]
  case logic32 op | logic16 op => cases op <;> rfl
  case shift32 kind | shift16 kind => cases kind <;> rfl

end

/-- Settles O19: no meaning reads the qualifiers, and bits 28 to 1 hold every other field of a row. -/
theorem qualifiersDoNotChangeTheOperation : Obligations.QualifiersDoNotChangeTheOperation := by
  refine ⟨Machine.exec_withQuals, fun c w w' i hadm hb h => ?_⟩
  obtain ⟨o, hword, rfl, -, hc⟩ := decode_cases h
  have hmasked := masked_of_body hb o
  rw [(o.masked_iff c w).mpr hword, o.masked_iff] at hmasked
  rw [← fieldsOf_instr_of_body hb, ← hmasked, decode_word (by rwa [Opcode.fieldsOf_opcode]) (hadm _), hmasked]

/-! ### Distinct `IC` values (30_encoding.md section 6) -/

/-- An instruction of each class whose operands and shift kind are encoded by zeros. -/
def zeroInstr (q : Quals) : OpClass → Instr
  | .logic .and => .and32 q .acc0 .acc0 .acc0
  | .logic .or => .or32 q .acc0 .acc0 .acc0
  | .logic .xor => .xor32 q .acc0 .acc0 .acc0
  | .logic .not => .not32 q .acc0 .acc0
  | .shift => .shiftrl32 q .acc0 ⟨.acc0, .l⟩ .acc0

theorem zeroInstr_injective (q : Quals) : Function.Injective (zeroInstr q) :=
  Function.LeftInverse.injective (g := fun i => i.opcode.opClass) fun
    | .logic .and | .logic .or | .logic .xor | .logic .not | .shift => rfl

@[simp] theorem zeroInstr_quals (q : Quals) : ∀ k, (zeroInstr q k).quals = q
  | .logic .and | .logic .or | .logic .xor | .logic .not | .shift => rfl

theorem wordS32_zero (ic : BitVec 5) (q : Quals) : wordS32 ic q 0#1 0#1 0#3 0#4 0#3 = wordL32 ic q 0#3 0#3 0#3 := by
  apply BitVec.eq_of_getLsbD_eq
  intro k hk
  simp only [wordS32, wordL32, BitVec.getLsbD_append]
  interval_cases k <;> simp

theorem encode_zeroInstr (c : Config) (q : Quals) : ∀ k, encode c (zeroInstr q k) = wordL32 (c.icOf k) q 0#3 0#3 0#3
  | .logic .and | .logic .or | .logic .xor | .logic .not => rfl
  | .shift => wordS32_zero _ _

theorem Config.wf_of_icOf_injective {c : Config} (h : Function.Injective c.icOf) : c.wf := by
  have hclasses : [OpClass.logic .and, .logic .or, .logic .xor, .logic .not, .shift].Nodup := by decide
  exact hclasses.map h

/-- Settles O25: distinct values make the round trip, and equal ones give two classes one word. -/
theorem distinctIcValuesAreNeeded : Obligations.DistinctIcValuesAreNeeded := by
  refine fun c ⟨q, hq⟩ => ⟨fun hwf i j hi hj h => ?_, fun hinj => Config.wf_of_icOf_injective fun k k' hk => ?_⟩
  · have hdecode := decodeOfEncodeIsTheInstruction c i hwf hi
    rw [h, decodeOfEncodeIsTheInstruction c j hwf hj] at hdecode
    exact (Except.ok.inj hdecode).symm
  · refine zeroInstr_injective q (hinj _ _ (by simpa [Instr.wf]) (by simpa [Instr.wf]) ?_)
    rw [encode_zeroInstr, encode_zeroInstr, hk]

/-! ### The fields that select the shift kind and the operand width (30_encoding.md section 6) -/

theorem shift32_bits {c : Config} {kind : ShiftKind} {w : Word} (h : ((Opcode.shift32 kind).fieldsOf w).word c = w) :
    w.extractLsb' 23 1 = kind.dirLeft ∧ w.extractLsb' 22 1 = kind.arith :=
  have hf := eq_wordS32_iff.mp h.symm
  ⟨hf.dirLeft_eq, hf.arith_eq⟩

theorem shift16_bits {c : Config} {kind : ShiftKind} {w : Word} (h : ((Opcode.shift16 kind).fieldsOf w).word c = w) :
    w.extractLsb' 23 1 = kind.dirLeft ∧ w.extractLsb' 22 1 = kind.arith :=
  have hf := eq_wordS16_iff.mp h.symm
  ⟨hf.dirLeft_eq, hf.arith_eq⟩

/-- Settles O27: the word is of a shift row, whose kind is its bits 23 and 22. -/
theorem shiftKindFollowsDirectionAndArith : Obligations.ShiftKindFollowsDirectionAndArith := by
  intro c w i hwf hic h
  obtain ⟨o, hword, rfl, -, hc⟩ := decode_cases h
  have hshift : o.opClass = .shift := by
    have hics := word_ic c (o.fieldsOf w)
    rw [hword, hic, Opcode.fieldsOf_opcode] at hics
    rw [← hics, classOf_icShift hwf] at hc
    exact (Option.some.inj hc).symm
  cases o with
  | logic32 | logic16 => cases hshift
  | shift32 kind =>
    obtain ⟨hl, ha⟩ := shift32_bits hword
    rw [hl, ha]
    cases kind <;> simp [ShiftKind.dirLeft, ShiftKind.arith, Opcode.fieldsOf, WordFields.instr, shift32Instr]
  | shift16 kind =>
    obtain ⟨hl, ha⟩ := shift16_bits hword
    rw [hl, ha]
    cases kind <;> simp [ShiftKind.dirLeft, ShiftKind.arith, Opcode.fieldsOf, WordFields.instr, shift16Instr]

theorem logic32Instr_dest (op : LogicOp) (q : Quals) (a b d : Acc) : (logic32Instr op q a b d).dest = .acc d := by
  cases op <;> rfl

theorem logic16Instr_dest (op : LogicOp) (q : Quals) (a b d : Half) : (logic16Instr op q a b d).dest = .half d := by
  cases op <;> rfl

theorem shift32Instr_dest (kind : ShiftKind) (q : Quals) (a : Acc) (b : Half) (d : Acc) :
    (shift32Instr kind q a b d).dest = .acc d := by
  cases kind <;> rfl

theorem shift16Instr_dest (kind : ShiftKind) (q : Quals) (a b d : Half) :
    (shift16Instr kind q a b d).dest = .half d := by
  cases kind <;> rfl

/-- Bit 21 of a word is 0 when its destination is a `$acc` register and 1 when it is a half register. -/
theorem word_opSize (c : Config) (f : WordFields) :
    ((f.word c).extractLsb' 21 1 = 0#1 ∧ ∃ r, f.instr.dest = .acc r) ∨
    ((f.word c).extractLsb' 21 1 = 1#1 ∧ ∃ r, f.instr.dest = .half r) := by
  cases f with
  | logic32 =>
    obtain ⟨-, -, hsize, -⟩ := wordL32_format ..
    exact .inl ⟨hsize, _, logic32Instr_dest ..⟩
  | logic16 =>
    obtain ⟨-, -, hsize, -⟩ := wordL16_format ..
    exact .inr ⟨hsize, _, logic16Instr_dest ..⟩
  | shift32 =>
    obtain ⟨-, -, -, hsize, -⟩ := wordS32_format ..
    exact .inl ⟨hsize, _, shift32Instr_dest ..⟩
  | shift16 =>
    obtain ⟨-, -, -, hsize, -⟩ := wordS16_format ..
    exact .inr ⟨hsize, _, shift16Instr_dest ..⟩

/-- Settles O28: bit 21 and the kind of the destination are both fixed by the row. -/
theorem operandSizeFollowsOpSize16 : Obligations.OperandSizeFollowsOpSize16 := by
  intro c w i h
  obtain ⟨o, hword, rfl, -⟩ := decode_cases h
  have hsize := word_opSize c (o.fieldsOf w)
  rw [hword] at hsize
  obtain ⟨h21, r, hr⟩ | ⟨h21, r, hr⟩ := hsize <;> simp [h21, hr]

/-! ### The number of accepted words (95_test_vectors.md section 2.1) -/

/-- Each row reads back the fields that a word was joined from. -/
theorem fieldsOf_word (c : Config) (f : WordFields) : f.opcode.fieldsOf (f.word c) = f := by
  have hq := qualsOf_word c f
  cases f with
  | logic32 op q a b d =>
    obtain ⟨-, -, -, hd, -, hb, -, ha, -⟩ := wordL32_format (c.icOf (.logic op)) q d.code b.code a.code
    rw [Acc.code_toNat] at hd hb ha
    exact WordFields.logic32.injEq .. ▸
      ⟨rfl, hq, accOfCode_of_toNat ha, accOfCode_of_toNat hb, accOfCode_of_toNat hd⟩
  | logic16 op q a b d =>
    obtain ⟨-, -, -, hd, hb, ha⟩ := wordL16_format (c.icOf (.logic op)) q d.code b.code a.code
    rw [Half.code_toNat] at hd hb ha
    exact WordFields.logic16.injEq .. ▸
      ⟨rfl, hq, halfOfCode_of_toNat ha, halfOfCode_of_toNat hb, halfOfCode_of_toNat hd⟩
  | shift32 kind q a b d =>
    obtain ⟨-, -, -, -, hd, -, hb, ha, -⟩ :=
      wordS32_format c.icShift q kind.dirLeft kind.arith d.code b.code a.code
    rw [Acc.code_toNat] at hd ha
    rw [Half.code_toNat] at hb
    exact WordFields.shift32.injEq .. ▸
      ⟨rfl, hq, accOfCode_of_toNat ha, halfOfCode_of_toNat hb, accOfCode_of_toNat hd⟩
  | shift16 kind q a b d =>
    obtain ⟨-, -, -, -, hd, hb, ha⟩ := wordS16_format c.icShift q kind.dirLeft kind.arith d.code b.code a.code
    rw [Half.code_toNat] at hd hb ha
    exact WordFields.shift16.injEq .. ▸
      ⟨rfl, hq, halfOfCode_of_toNat ha, halfOfCode_of_toNat hb, halfOfCode_of_toNat hd⟩

theorem word_injective {c : Config} (hwf : c.wf) (hadm : ∀ q, c.admits q = true) :
    Function.Injective (WordFields.word c) := by
  intro f f' h
  have hinstr : f.instr = f'.instr := by
    have hf := decode_word (f := f) (classOf_icOf hwf _) (hadm _)
    rw [h, decode_word (classOf_icOf hwf _) (hadm _)] at hf
    exact (Except.ok.inj hf).symm
  have hopcode : f.opcode = f'.opcode := by simpa using congrArg Instr.opcode hinstr
  rw [← fieldsOf_word c f, h, hopcode, fieldsOf_word]

/-- The accepted words are in one-to-one correspondence with the fields that words hold. -/
noncomputable def fieldsEquivAccepted {c : Config} (hwf : c.wf) (hadm : ∀ q, c.admits q = true) :
    WordFields ≃ {w : Word // ∃ i, decode c w = .ok i} :=
  Equiv.ofBijective (fun f => ⟨f.word c, f.instr, decode_word (classOf_icOf hwf _) (hadm _)⟩)
    ⟨fun _ _ h => word_injective hwf hadm (Subtype.ext_iff.mp h), fun ⟨_, _, h⟩ =>
      have ⟨_, hword, _⟩ := decode_cases h
      ⟨_, Subtype.ext hword⟩⟩

def WordFields.equivSum : WordFields ≃
    (LogicOp × Quals × Acc × Acc × Acc) ⊕ (LogicOp × Quals × Half × Half × Half) ⊕
      (ShiftKind × Quals × Acc × Half × Acc) ⊕ (ShiftKind × Quals × Half × Half × Half) where
  toFun
    | .logic32 op q a b d => .inl (op, q, a, b, d)
    | .logic16 op q a b d => .inr (.inl (op, q, a, b, d))
    | .shift32 kind q a b d => .inr (.inr (.inl (kind, q, a, b, d)))
    | .shift16 kind q a b d => .inr (.inr (.inr (kind, q, a, b, d)))
  invFun
    | .inl (op, q, a, b, d) => .logic32 op q a b d
    | .inr (.inl (op, q, a, b, d)) => .logic16 op q a b d
    | .inr (.inr (.inl (kind, q, a, b, d))) => .shift32 kind q a b d
    | .inr (.inr (.inr (kind, q, a, b, d))) => .shift16 kind q a b d
  left_inv f := by cases f <;> rfl
  right_inv := by rintro (_ | _ | _ | _) <;> rfl

def Quals.equivProd : Quals ≃ BitVec 2 × BitVec 1 × BitVec 1 where
  toFun q := (q.pr, q.t, q.p)
  invFun x := ⟨x.1, x.2.1, x.2.2⟩

def Acc.equivCode : Acc ≃ BitVec 3 := ⟨Acc.code, accOfCode, accOfCode_code, code_accOfCode⟩

def Half.equivCode : Half ≃ BitVec 4 := ⟨Half.code, halfOfCode, halfOfCode_code, code_halfOfCode⟩

theorem card_bitVec (n : Nat) : Nat.card (BitVec n) = 2 ^ n := by
  rw [Nat.card_eq_fintype_card, ← FinEnum.card_eq_fintypeCard]
  exact FinEnum.card_bitVec n

theorem card_acc : Nat.card Acc = 8 := (Nat.card_congr Acc.equivCode).trans (card_bitVec 3)

theorem card_half : Nat.card Half = 16 := (Nat.card_congr Half.equivCode).trans (card_bitVec 4)

theorem card_quals : Nat.card Quals = 16 := by
  rw [Nat.card_congr Quals.equivProd, Nat.card_prod, Nat.card_prod, card_bitVec, card_bitVec]
  rfl

theorem card_logicOp : Nat.card LogicOp = 4 :=
  Nat.card_eq_of_equiv_fin
    { toFun := fun | .and => 0 | .or => 1 | .xor => 2 | .not => 3
      invFun := fun | 0 => .and | 1 => .or | 2 => .xor | 3 => .not
      left_inv := by rintro (_ | _) <;> rfl
      right_inv := by decide }

theorem card_shiftKind : Nat.card ShiftKind = 3 :=
  Nat.card_eq_of_equiv_fin
    { toFun := fun | .ra => 0 | .ll => 1 | .rl => 2
      invFun := fun | 0 => .ra | 1 => .ll | 2 => .rl
      left_inv := by rintro (_ | _) <;> rfl
      right_inv := by decide }

theorem card_wordFields : Nat.card WordFields = 540672 := by
  have finite_of_card {α : Type} {n : Nat} (h : Nat.card α = n + 1) : Finite α :=
    Nat.finite_of_card_ne_zero (by omega)
  have := finite_of_card card_logicOp
  have := finite_of_card card_shiftKind
  have := finite_of_card card_quals
  have := finite_of_card card_acc
  have := finite_of_card card_half
  rw [Nat.card_congr WordFields.equivSum]
  simp only [Nat.card_sum, Nat.card_prod, card_logicOp, card_shiftKind, card_quals, card_acc, card_half]

/-- Settles O24: an accepted word is what its row and its fields are, and their number is a product. -/
theorem acceptedWordsAreCounted : Obligations.AcceptedWordsAreCounted :=
  (Nat.card_congr (fieldsEquivAccepted default_wf default_admits)).symm.trans card_wordFields

end Sys2Proof

namespace Sys2Proof

/-! ### The reason a refused word gets (30_encoding.md R62, section 8) -/

theorem classOf_eq_none {c : Config} {ic : BitVec 5} (hlogic : ic ∉ [c.icAnd, c.icOr, c.icXor, c.icNot])
    (hshift : ic ≠ c.icShift) : classOf c ic = none := by
  simp only [List.mem_cons, List.not_mem_nil, or_false, not_or] at hlogic
  obtain ⟨hand, hor, hxor, hnot⟩ := hlogic
  simp [classOf, hand, hor, hxor, hnot, hshift]

theorem exists_classOf_logic {c : Config} (hwf : c.wf) {ic : BitVec 5}
    (hlogic : ic ∈ [c.icAnd, c.icOr, c.icXor, c.icNot]) : ∃ op, classOf c ic = some (.logic op) := by
  simp only [List.mem_cons, List.not_mem_nil, or_false] at hlogic
  obtain rfl | rfl | rfl | rfl := hlogic
  exacts [⟨_, classOf_icAnd c⟩, ⟨_, classOf_icOr hwf⟩, ⟨_, classOf_icXor hwf⟩, ⟨_, classOf_icNot hwf⟩]

theorem decode_of_notA32BitWord (c : Config) {w : Word} (h : w.extractLsb' 1 1 = 0#1) :
    decode c w = .error .notA32BitWord := by
  simp [decode, h]

section
variable {c : Config} {w : Word} (hS : w.extractLsb' 1 1 = 1#1)
include hS

theorem decode_of_otherFunctionalUnit (hFU : w.extractLsb' 2 2 ≠ 2#2) :
    decode c w = .error .otherFunctionalUnit := by
  simp [decode, hS, hFU]

variable (hFU : w.extractLsb' 2 2 = 2#2)
include hFU

theorem decode_of_unassignedIC (hk : classOf c (w.extractLsb' 4 5) = none) : decode c w = .error .unassignedIC := by
  simp [decode, hS, hFU, hk]

variable {k : OpClass} (hk : classOf c (w.extractLsb' 4 5) = some k)
include hk

theorem decode_of_unlistedBits (h24 : w.extractLsb' 24 5 ≠ 0#5) : decode c w = .error .unlistedBitsNonzero := by
  simp [decode, hS, hFU, hk, h24]

variable (h24 : w.extractLsb' 24 5 = 0#5)
include h24

theorem decode_of_decodeClass_error {reason : DecodeReason} (hd : decodeClass k w = .error reason) :
    decode c w = .error reason := by
  simp [decode, hS, hFU, hk, h24, hd]

/-- A word that passes every other test is left to the qualifier test. -/
theorem decode_of_decodeClass_ok (hd : ∃ i, decodeClass k w = .ok i) :
    (c.admits (qualsOf w) = true → ∃ i, decode c w = .ok i ∧ i.quals = qualsOf w) ∧
      (c.admits (qualsOf w) = false → decode c w = .error .qualifierNotAdmitted) := by
  obtain ⟨i, hd⟩ := hd
  refine ⟨fun hq => ?_, fun hq => by simp [decode, hS, hFU, hk, h24, hd, hq]⟩
  have hi : decode c w = .ok i := by simp [decode, hS, hFU, hk, h24, hd, hq]
  exact ⟨i, hi, decode_quals hi⟩

end

/-- The bits that format `L32` and format `S32` both list nowhere: bit 17 or bit 9 of a `*32` word is 1. -/
def Unlisted32 (w : Word) : Prop :=
  w.extractLsb' 21 1 = 0#1 ∧ (w.extractLsb' 17 1 = 1#1 ∨ w.extractLsb' 9 1 = 1#1)

/-- A bit that a logic word's format does not list is 1. -/
def UnlistedLogic (w : Word) : Prop :=
  w.extractLsb' 22 2 ≠ 0#2 ∨ Unlisted32 w ∨ (w.extractLsb' 21 1 = 0#1 ∧ w.extractLsb' 13 1 = 1#1)

theorem decodeLogic_of_unlisted (op : LogicOp) {w : Word} (h : UnlistedLogic w) :
    decodeLogic op w = .error .unlistedBitsNonzero := by
  obtain h22 | ⟨h21, h17 | h9⟩ | ⟨h21, h13⟩ := h <;> simp [decodeLogic, *]

theorem exists_decodeLogic_of_listed (op : LogicOp) {w : Word} (h : ¬ UnlistedLogic w) :
    ∃ i, decodeLogic op w = .ok i := by
  simp only [UnlistedLogic, Unlisted32, not_or, not_and, not_not] at h
  obtain ⟨h22, h32, h13⟩ := h
  obtain h21 | h21 := BitVec.eq_zero_or_eq_one (w.extractLsb' 21 1)
  · simp [decodeLogic, h22, h21, h32 h21, h13 h21]
  · simp [decodeLogic, h22, h21]

theorem shiftKindOf_eq_none_iff (f : BitVec 2) : shiftKindOf f = none ↔ f = 3#2 := by
  revert f; decide

theorem decodeShift_of_reserved {w : Word} (h : w.extractLsb' 22 2 = 3#2) :
    decodeShift w = .error .reservedShiftKind := by
  simp [decodeShift, (shiftKindOf_eq_none_iff _).mpr h]

theorem exists_shiftKindOf {f : BitVec 2} (h : f ≠ 3#2) : ∃ kind, shiftKindOf f = some kind :=
  Option.ne_none_iff_exists'.mp (mt (shiftKindOf_eq_none_iff f).mp h)

theorem decodeShift_of_unlisted {w : Word} (h22 : w.extractLsb' 22 2 ≠ 3#2) (h : Unlisted32 w) :
    decodeShift w = .error .unlistedBitsNonzero := by
  obtain ⟨kind, hk⟩ := exists_shiftKindOf h22
  obtain ⟨h21, h17 | h9⟩ := h <;> simp [decodeShift, *]

theorem exists_decodeShift_of_listed {w : Word} (h22 : w.extractLsb' 22 2 ≠ 3#2) (h : ¬ Unlisted32 w) :
    ∃ i, decodeShift w = .ok i := by
  obtain ⟨kind, hk⟩ := exists_shiftKindOf h22
  simp only [Unlisted32, not_or, not_and] at h
  obtain h21 | h21 := BitVec.eq_zero_or_eq_one (w.extractLsb' 21 1)
  · simp [decodeShift, hk, h21, h h21]
  · simp [decodeShift, hk, h21]

/-- Settles O26: the decoder's tests one by one, each under the outcome of those before it. -/
theorem refusalReasonsInOrder : Obligations.RefusalReasonsInOrder := by
  intro c w hwf logicIc ic unlisted32
  refine ⟨decode_of_notA32BitWord c, decode_of_otherFunctionalUnit, fun hS hFU => ⟨fun hlogic hshift => ?_,
    fun hic h24 => ?_, fun hic h24 => ?_, fun hic h24 => ?_⟩⟩
  · exact decode_of_unassignedIC hS hFU (classOf_eq_none hlogic hshift)
  · obtain ⟨k, hk⟩ : ∃ k, classOf c ic = some k := hic.elim
      (fun h => (exists_classOf_logic hwf h).imp' _ fun _ => id) fun h => ⟨_, h ▸ classOf_icShift hwf⟩
    exact decode_of_unlistedBits hS hFU hk h24
  · obtain ⟨op, hk⟩ := exists_classOf_logic hwf hic
    exact ⟨fun h => decode_of_decodeClass_error hS hFU hk h24 (decodeLogic_of_unlisted op h),
      fun h => decode_of_decodeClass_ok hS hFU hk h24 (exists_decodeLogic_of_listed op h)⟩
  · have hk : classOf c ic = some .shift := by rw [hic, classOf_icShift hwf]
    exact ⟨fun h => decode_of_decodeClass_error hS hFU hk h24 (decodeShift_of_reserved h),
      fun h22 h => decode_of_decodeClass_error hS hFU hk h24 (decodeShift_of_unlisted h22 h),
      fun h22 h => decode_of_decodeClass_ok hS hFU hk h24 (exists_decodeShift_of_listed h22 h)⟩

/-! ### Half-register field values (10_state.md R12) and the worked words -/

theorem halfOfCode_index (f : BitVec 4) : (halfOfCode f).index = f.toNat := by
  rw [← Half.code_toNat, code_halfOfCode]

theorem Half.index_div_mod (r : Half) : r.acc.number = r.index / 2 ∧ (r.side = .h ↔ r.index % 2 = 1) := by
  obtain ⟨n, side⟩ := r
  cases side with
  | l => simp [Half.index, Side.number]
  | h =>
    simp only [Half.index, Side.number, true_iff]
    omega

/-- Settles O32: `halfOfCode` and `Half.code` are inverse to each other, and the index is `2 * n + h`. -/
theorem halfFieldOrderIsTwoNPlusH : Obligations.HalfFieldOrderIsTwoNPlusH :=
  ⟨halfOfCode_index, halfOfCode_code, fun f => halfOfCode_index f ▸ (halfOfCode f).index_div_mod⟩

/-- Settles O29: each word of the spec is decoded by evaluation. -/
theorem specWordsDecode : Obligations.SpecWordsDecode := by
  unfold Obligations.SpecWordsDecode
  decide

end Sys2Proof

namespace Sys2Proof.Machine

/-! ### Steps and the invariant (10_state.md R16, 60_exceptions.md R102) -/

/-- Settles O18: `exec_eq` gives the next state. -/
theorem everyInstructionCompletes : Obligations.EveryInstructionCompletes :=
  fun i s => ⟨_, exec_eq i s, rfl, rfl, rfl⟩

/-- Settles O35: `step` fetches, decodes and executes, and the instruction completes. -/
theorem stepRunsTheDecodedInstruction : Obligations.StepRunsTheDecodedInstruction := by
  intro s w i hr hw hi
  have hstep := step_of_decode hr hw hi
  exact ⟨hstep, _, hstep.trans (exec_eq i s), rfl⟩

theorem fetch_eq_none_iff (s : State) : s.fetch = none ↔ s.launch.program.length ≤ s.pc := List.getElem?_eq_none_iff

theorem pc_lt_of_fetch {s : State} {w : Word} (h : s.fetch = some w) : s.pc < s.launch.program.length :=
  (List.getElem?_eq_some_iff.mp h).1

/-- All that a step that executes does to what is not a register. -/
theorem step_next_frame {s t : State} (h : step s = .next t) :
    s.pc < s.launch.program.length ∧ t.pc = s.pc + 1 ∧ t.refusal = none ∧ t.launch = s.launch := by
  obtain ⟨w, i, hr, hw, -, hexec⟩ := step_next_cases h
  obtain ⟨hpc, href, hlaunch⟩ := exec_pc_refusal_launch hexec
  exact ⟨pc_lt_of_fetch hw, hpc, href.trans hr, hlaunch⟩

theorem State.refusalSound_of_refusal_none {s : State} (h : s.refusal = none) : s.refusalSound := by
  intro r hr
  rw [h] at hr
  cases hr

/-- Settles O41: the program and configuration stay, and an instruction is fetched below the program's end only. -/
theorem stepKeepsInvariant : Obligations.StepKeepsInvariant := by
  intro s t hs h
  obtain ⟨hlt, hpc, hr, hl⟩ := step_next_frame h
  have hbound : t.pc ≤ s.launch.program.length := by omega
  exact ⟨⟨hl ▸ hs.configWf, hl ▸ hbound, State.refusalSound_of_refusal_none hr⟩, hr, hbound⟩

theorem stepRecorded_of_fault {s : State} {r : Fault} (h : step s = .fault r) : stepRecorded s = s := by
  simp [stepRecorded, h]

/-- What a refused step comes from. -/
theorem step_refused_cases {s : State} {r : Refusal} (h : step s = .refused r) :
    s.refusal = some r ∨
      ∃ w reason, s.refusal = none ∧ s.fetch = some w ∧ decode s.launch.config w = .error reason ∧
        r = .undecodable reason := by
  cases hr : s.refusal with
  | some r' =>
    obtain rfl := Host.Outcome.refused.inj ((step_of_refusal hr).symm.trans h)
    exact .inl rfl
  | none =>
    cases hw : s.fetch with
    | none => cases (step_of_runOver hr hw).symm.trans h
    | some w =>
      cases hi : decode s.launch.config w with
      | ok i => cases ((step_of_decode hr hw hi).trans (exec_eq i s)).symm.trans h
      | error reason =>
        obtain rfl := Host.Outcome.refused.inj ((step_of_undecodable hr hw hi).symm.trans h)
        exact .inr ⟨w, reason, rfl, rfl, hi, rfl⟩

theorem recordRefusal_self {s : State} {r : Refusal} (h : s.refusal = some r) : s.recordRefusal r = s := by
  cases s
  cases h
  rfl

/-- All that a recorded step can do: it executes, it stays, or it records the reason of the word at `pc`. -/
theorem stepRecorded_cases (s : State) :
    step s = .next (stepRecorded s) ∨ stepRecorded s = s ∨
      ∃ w reason, s.fetch = some w ∧ decode s.launch.config w = .error reason ∧
        stepRecorded s = s.recordRefusal (.undecodable reason) := by
  cases h : step s with
  | next t => exact .inl (by rw [stepRecorded_of_next h])
  | fault r => exact .inr (.inl (stepRecorded_of_fault h))
  | refused r =>
    obtain hr | ⟨w, reason, -, hw, hi, rfl⟩ := step_refused_cases h
    · exact .inr (.inl ((stepRecorded_of_refused h).trans (recordRefusal_self hr)))
    · exact .inr (.inr ⟨w, reason, hw, hi, stepRecorded_of_refused h⟩)

theorem stepRecorded_launch (s : State) : (stepRecorded s).launch = s.launch := by
  obtain h | h | ⟨_, _, -, -, h⟩ := stepRecorded_cases s
  · obtain ⟨-, -, -, hl⟩ := step_next_frame h
    exact hl
  · rw [h]
  · rw [h, State.recordRefusal_launch]

theorem stepRecorded_pc (s : State) : s.pc ≤ (stepRecorded s).pc ∧ (stepRecorded s).pc ≤ s.pc + 1 := by
  obtain h | h | ⟨_, _, -, -, h⟩ := stepRecorded_cases s
  · obtain ⟨-, hpc, -⟩ := step_next_frame h
    omega
  · rw [h]
    omega
  · rw [h, State.recordRefusal_pc]
    omega

theorem stepRecorded_inv {s : State} (hs : s.Inv) : (stepRecorded s).Inv := by
  obtain h | h | ⟨w, reason, hw, hi, h⟩ := stepRecorded_cases s
  · exact (stepKeepsInvariant _ _ hs h).1
  · rwa [h]
  · rw [h]
    exact ⟨hs.configWf, hs.pcBounded, fun r hr => ⟨w, reason, hw, hi, (Option.some.inj hr).symm⟩⟩

/-- What holds of a state and is kept by every recorded step holds along the recorded run. -/
theorem runRecorded_induction {P : State → Prop} (hstep : ∀ s, P s → P (stepRecorded s)) (k : Nat) {s : State}
    (hs : P s) : P (runRecorded k s) := by
  induction k generalizing s with
  | zero => exact hs
  | succ k ih => exact ih (hstep s hs)

theorem runRecorded_launch (k : Nat) (s : State) : (runRecorded k s).launch = s.launch :=
  runRecorded_induction (P := fun t => t.launch = s.launch) (fun t ht => (stepRecorded_launch t).trans ht) k rfl

theorem runRecorded_pc (k : Nat) (s : State) : s.pc ≤ (runRecorded k s).pc ∧ (runRecorded k s).pc ≤ s.pc + k := by
  induction k generalizing s with
  | zero => exact ⟨le_refl _, le_refl _⟩
  | succ k ih =>
    obtain ⟨hle, hlt⟩ := stepRecorded_pc s
    obtain ⟨hle', hlt'⟩ := ih (stepRecorded s)
    exact ⟨hle.trans hle', hlt'.trans (by omega)⟩

/-- Settles O42: each recorded step keeps the invariant, the launch and the bound on `pc`. -/
theorem recordedStepKeepsInvariant : Obligations.RecordedStepKeepsInvariant :=
  fun s k hs => ⟨runRecorded_induction (P := State.Inv) (fun _ => stepRecorded_inv) k hs,
    runRecorded_launch k s, runRecorded_pc k s⟩

theorem runRecorded_of_fixed {s : State} (h : stepRecorded s = s) (k : Nat) : runRecorded k s = s :=
  runRecorded_induction (P := (· = s)) (fun _ ht => by rw [ht, h]) k rfl

theorem stepRecorded_of_refusal {s : State} {r : Refusal} (h : s.refusal = some r) : stepRecorded s = s :=
  (stepRecorded_of_refused (step_of_refusal h)).trans (recordRefusal_self h)

/-- Settles O37: a state with a recorded refusal is a fixed point of the recorded step. -/
theorem recordedRefusalStays : Obligations.RecordedRefusalStays := by
  refine ⟨fun s r k hr => ⟨runRecorded_of_fixed (stepRecorded_of_refusal hr) k, step_of_refusal hr,
    fun hfinal => ?_⟩, fun s r k h => ?_⟩
  · cases hr.symm.trans hfinal.2
  · have hr : (stepRecorded s).refusal = some r := by rw [stepRecorded_of_refused h, State.recordRefusal_refusal]
    exact ⟨hr, runRecorded_of_fixed (stepRecorded_of_refusal hr) k⟩

/-- Settles O38: the word at `pc` decodes, and the step executes, or it does not, and the step refuses. -/
theorem stepInsideTheProgramHasTwoOutcomes : Obligations.StepInsideTheProgramHasTwoOutcomes := by
  intro s hr hpc
  by_cases hd : s.decodableAt s.pc
  · obtain ⟨t, hstep, htpc, htr, -⟩ := step_next_of_decodableAt hr hd
    exact .inl ⟨t, hstep, htr, htpc⟩
  · exact .inr (step_refused_of_not_decodableAt hr hpc hd)

/-- Settles O39: `runOver` is the outcome without a word to fetch, and inside the program no step faults. -/
theorem runIsOverAtTheEndOfTheProgram : Obligations.RunIsOverAtTheEndOfTheProgram := by
  intro s hr
  have hover (hpc : s.launch.program.length ≤ s.pc) : step s = .fault .runOver :=
    step_of_runOver hr ((fetch_eq_none_iff s).mpr hpc)
  refine ⟨⟨fun h => ?_, hover⟩, fun hpc => runRecorded_of_fixed (stepRecorded_of_fault (hover hpc))⟩
  by_contra hpc
  obtain ⟨t, hstep, -⟩ | ⟨reason, hstep⟩ := stepInsideTheProgramHasTwoOutcomes s hr (by omega) <;>
    cases hstep.symm.trans h

theorem State.launched_inv {p : Launch} (h : p.config.wf) (regs : AccFile) : (State.launched p regs).Inv :=
  ⟨h, Nat.zero_le _, State.refusalSound_of_refusal_none rfl⟩

/-- Settles O43: a launch starts at `pc = 0` with nothing refused, and reset is the launch of the empty program. -/
theorem launchMeetsInvariant : Obligations.LaunchMeetsInvariant :=
  ⟨fun _ regs h => ⟨State.launched_inv h regs, rfl, rfl, rfl, rfl⟩, State.launched_inv default_wf _, rfl, rfl⟩

theorem run_next_frame {k : Nat} {s t : State} (h : core.run k s = .next t) :
    t.launch = s.launch ∧ t.pc = s.pc + k := by
  induction k generalizing s with
  | zero =>
    obtain rfl : s = t := Host.Outcome.next.inj h
    exact ⟨rfl, rfl⟩
  | succ k ih =>
    obtain ⟨u, hu, hrun⟩ := run_succ_next_cases h
    obtain ⟨-, hpc, -, hl⟩ := step_next_frame hu
    obtain ⟨hl', hpc'⟩ := ih hrun
    exact ⟨hl'.trans hl, by omega⟩

/-- Settles O44: no instruction, step or recorded step writes the launch, and each executed step raises `pc` by one. -/
theorem programIsTheSameAtEveryFetch : Obligations.ProgramIsTheSameAtEveryFetch :=
  ⟨fun _ _ _ h => (exec_pc_refusal_launch h).2.2, fun _ _ _ h => run_next_frame h, runRecorded_launch⟩

/-- Settles O45: the new registers are a function of the old ones alone. -/
theorem effectIsIndependentOfTheConfiguration : Obligations.EffectIsIndependentOfTheConfiguration := by
  intro i s t p h
  obtain rfl := (exec_next_iff i s t).mp h
  exact exec_eq i _

/-! ### Placing a word (70_reset_and_hazards.md R126) -/

theorem placeWord_getElem?_same (program : List Word) (n : Nat) (w : Word) : (placeWord program n w)[n]? = some w := by
  unfold placeWord
  rw [List.getElem?_append_right (by simp; omega)]
  have : n - (program.take n ++ List.replicate (n - program.length) 0#32).length = 0 := by simp; omega
  rw [this]
  rfl

theorem placeWord_getElem?_ne {program : List Word} {n k : Nat} (w : Word) (hk : k < program.length) (hne : k ≠ n) :
    (placeWord program n w)[k]? = program[k]? := by
  unfold placeWord
  obtain hlt | hgt := Nat.lt_or_gt_of_ne hne
  · rw [List.append_assoc, List.getElem?_append_left (by simp; omega), List.getElem?_take_of_lt hlt]
  · obtain ⟨m, rfl⟩ := Nat.exists_eq_add_of_lt hgt
    have hlen : (program.take n ++ List.replicate (n - program.length) 0#32).length = n := by simp; omega
    rw [List.getElem?_append_right (by omega), hlen]
    simp [show n + m + 1 - n = m + 1 by omega, Nat.add_right_comm]

/-- Settles O46: the word stands at index `pc` of the program, and every other word stands where it stood. -/
theorem placedWordIsFetchedNext : Obligations.PlacedWordIsFetchedNext := by
  intro s nbits w
  have hfetch : (s.withFetchWord nbits w).fetch = some (tableWord nbits w) := placeWord_getElem?_same _ _ _
  exact ⟨hfetch, rfl, rfl, rfl, fun k hk hne => placeWord_getElem?_ne _ hk hne,
    fun i hi => step_of_decode rfl hfetch hi⟩

end Sys2Proof.Machine

namespace Sys2Proof.Machine

/-! ### Shift results (41_shift32.md R85, 43_shift16.md R99) -/

/-- Settles O15: in range the three results are the bit-vector shifts, whose bits the library states. -/
theorem inRangeShiftMovesBits : Obligations.InRangeShiftMovesBits := by
  intro W x n k hn hk
  rw [shiftResult_inRange _ x hn, shiftResult_inRange _ x hn, shiftResult_inRange _ x hn, shiftInRange_ll,
    shiftInRange_rl, shiftInRange_ra]
  refine ⟨?_, ?_, ?_⟩
  · rw [BitVec.getLsbD_shiftLeft, decide_eq_true hk, Bool.true_and, ← decide_not]
    simp only [Nat.not_lt]
  · rw [BitVec.getLsbD_ushiftRight, Nat.add_comm n k]
    by_cases h : k + n < W
    · simp [h]
    · simp [h, BitVec.getLsbD_of_ge _ _ (Nat.le_of_not_lt h)]
  · rw [BitVec.getLsbD_sshiftRight, Nat.add_comm n k]
    simp [Nat.not_le.mpr hk, BitVec.msb_eq_getLsbD_last]

theorem exec_shift32Instr_writes (kind : ShiftKind) (q : Quals) (a : Acc) (b : Half) (d : Acc) (s : State) :
    ∃ t, exec (shift32Instr kind q a b d) s = .next t ∧
      WritesAcc s t d (shiftResult kind (s.readAcc a) (s.readHalf b).toNat) := by
  cases kind <;> exact completeAcc_writes s d _

/-- Settles O16: the amount is at or above 16, so the free value at width 16, and below 32, so the shift at width 32. -/
theorem amountBoundIsTheDataWidth : Obligations.AmountBoundIsTheDataWidth := by
  intro q a b d a' d' s h16 h32
  have hhalf (kind : ShiftKind) : ∃ t, exec (shift16Instr kind q a b d) s = .next t ∧
      t.readHalf d = Config.shiftOor kind 16 (s.readHalf a) (s.readHalf b).toNat := by
    obtain ⟨t, ht, hw⟩ := exec_shift16Instr_writes kind q a b d s
    exact ⟨t, ht, hw.result.trans (shiftResult_outOfRange kind _ h16)⟩
  have hfull (kind : ShiftKind) : ∃ t, exec (shift32Instr kind q a' b d') s = .next t ∧
      t.readAcc d' = shiftInRange kind (s.readAcc a') (s.readHalf b).toNat := by
    obtain ⟨t, ht, hw⟩ := exec_shift32Instr_writes kind q a' b d' s
    exact ⟨t, ht, hw.result.trans (shiftResult_inRange kind _ h32)⟩
  rw [← shiftInRange_ra, ← shiftInRange_ll, ← shiftInRange_rl]
  exact ⟨hhalf .ra, hhalf .ll, hhalf .rl, hfull .ra, hfull .ll, hfull .rl⟩

/-! ### Half registers (10_state.md R13, R14) -/

/-- Settles O33: a half register is a part of its `$acc` register, and a write of the whole is read back. -/
theorem halvesAreTheRegisterSplit : Obligations.HalvesAreTheRegisterSplit := by
  refine fun s n => ⟨rfl, rfl, (join_halves _).symm, fun v => ?_⟩
  have hread (side : Side) : (s.writeAcc n v).readHalf ⟨n, side⟩ = halfOf v side :=
    congrArg (halfOf · side) (AccFile.read_write_same s.acc n v)
  exact ⟨hread .l, hread .h⟩

/-- Settles O34: a half write is a write of its `$acc` register with one half replaced. -/
theorem halfWriteKeepsEverythingElse : Obligations.HalfWriteKeepsEverythingElse :=
  fun s n v => ⟨AccFile.read_write_same s.acc n _, AccFile.read_write_same s.acc n _, fun _ =>
    ⟨AccFile.readHalf_writeHalf_same s.acc _ v, fun _ hr => AccFile.readHalf_writeHalf_ne s.acc v hr,
      fun _ hm => AccFile.read_writeHalf_ne s.acc v hm⟩⟩

/-! ### Idioms (30_encoding.md section 10) -/

/-- Completing into a `$acc` register with the value it holds moves `pc` alone. -/
theorem completeAcc_readAcc (s : State) (d : Acc) :
    completeAcc s d (s.readAcc d) = .next { s with pc := s.pc + 1 } := by
  simp [completeAcc, State.writeAcc, State.advance, State.readAcc]

/-- Settles O48: the idioms are the idempotence of AND and OR and the self-inverse of exclusive OR. -/
theorem copyClearAndNoOpIdioms : Obligations.CopyClearAndNoOpIdioms := by
  intro q a d s
  rw [exec_or32, exec_and32, exec_xor32, exec_or32, BitVec.or_self, BitVec.and_self, BitVec.xor_self]
  exact ⟨completeAcc_writes s d _, completeAcc_writes s d _, completeAcc_writes s d _, completeAcc_readAcc s a⟩

/-! ### Halves of all zeros or all ones (70_reset_and_hazards.md R122) -/

/-- All zeros or all ones. -/
def ExtremeHalf (x : HalfWord) : Prop := x = 0x0000#16 ∨ x = 0xFFFF#16

theorem ExtremeHalf.and {x y : HalfWord} (hx : ExtremeHalf x) (hy : ExtremeHalf y) : ExtremeHalf (x &&& y) := by
  obtain rfl | rfl := hx <;> obtain rfl | rfl := hy <;> simp [ExtremeHalf]

theorem ExtremeHalf.or {x y : HalfWord} (hx : ExtremeHalf x) (hy : ExtremeHalf y) : ExtremeHalf (x ||| y) := by
  obtain rfl | rfl := hx <;> obtain rfl | rfl := hy <;> simp [ExtremeHalf]

theorem ExtremeHalf.xor {x y : HalfWord} (hx : ExtremeHalf x) (hy : ExtremeHalf y) : ExtremeHalf (x ^^^ y) := by
  obtain rfl | rfl := hx <;> obtain rfl | rfl := hy <;> simp [ExtremeHalf]

theorem ExtremeHalf.not {x : HalfWord} (hx : ExtremeHalf x) : ExtremeHalf (~~~x) := by
  obtain rfl | rfl := hx <;> simp [ExtremeHalf]

/-- The one extreme value below 16 is 0. -/
theorem ExtremeHalf.toNat_eq_zero {x : HalfWord} (hx : ExtremeHalf x) (h : x.toNat < 16) : x.toNat = 0 := by
  obtain rfl | rfl := hx
  · rfl
  · simp at h

theorem halfOf_and (x y : Word) (side : Side) : halfOf (x &&& y) side = halfOf x side &&& halfOf y side := by
  cases side <;> exact BitVec.extractLsb'_and

theorem halfOf_or (x y : Word) (side : Side) : halfOf (x ||| y) side = halfOf x side ||| halfOf y side := by
  cases side <;> exact BitVec.extractLsb'_or

theorem halfOf_xor (x y : Word) (side : Side) : halfOf (x ^^^ y) side = halfOf x side ^^^ halfOf y side := by
  cases side <;> exact BitVec.extractLsb'_xor

theorem halfOf_not (x : Word) (side : Side) : halfOf (~~~x) side = ~~~(halfOf x side) := by
  apply BitVec.eq_of_getLsbD_eq
  intro k hk
  have h32 : k < 32 := by omega
  have h16 : 16 + k < 32 := by omega
  cases side <;> simp [halfOf, hk, h32, h16]

theorem shiftResult_zero (kind : ShiftKind) {W : Nat} (hW : 0 < W) (x : BitVec W) : shiftResult kind x 0 = x := by
  rw [shiftResult_inRange kind x hW]
  cases kind <;> simp [shiftInRange_ll, shiftInRange_rl, shiftInRange_ra]

/-- Both halves of the value are extreme. -/
def ExtremeWord (v : Word) : Prop := ∀ side, ExtremeHalf (halfOf v side)

section
variable {s t : State} (hs : s.halvesExtreme)
include hs

theorem extremeHalf_readHalf (r : Half) : ExtremeHalf (s.readHalf r) := hs r

theorem extremeWord_readAcc (r : Acc) : ExtremeWord (s.readAcc r) := fun side => hs ⟨r, side⟩

theorem halvesExtreme_of_completeAcc {d : Acc} {v : Word} (hv : ExtremeWord v) (h : completeAcc s d v = .next t) :
    t.halvesExtreme := by
  have hw := completeAcc_next h
  rintro ⟨n, side⟩
  by_cases hn : n = d
  · subst hn
    have hread : t.readHalf ⟨n, side⟩ = halfOf v side := congrArg (halfOf · side) hw.result
    rw [hread]
    exact hv side
  · rw [hw.readHalf_of_ne hn]
    exact hs _

theorem halvesExtreme_of_completeHalf {d : Half} {v : HalfWord} (hv : ExtremeHalf v)
    (h : completeHalf s d v = .next t) : t.halvesExtreme := by
  have hw := completeHalf_next h
  intro r
  by_cases hr : r = d
  · rw [hr, hw.result]
    exact hv
  · rw [hw.others r hr]
    exact hs r

theorem halvesExtreme_of_logic {i : Instr} (hi : i.isLogic = true) (h : exec i s = .next t) : t.halvesExtreme := by
  have hacc := extremeWord_readAcc hs
  have hhalf := extremeHalf_readHalf hs
  cases i with
  | and32 q a b d =>
    exact halvesExtreme_of_completeAcc hs (fun side => halfOf_and _ _ side ▸ (hacc a side).and (hacc b side)) h
  | or32 q a b d =>
    exact halvesExtreme_of_completeAcc hs (fun side => halfOf_or _ _ side ▸ (hacc a side).or (hacc b side)) h
  | xor32 q a b d =>
    exact halvesExtreme_of_completeAcc hs (fun side => halfOf_xor _ _ side ▸ (hacc a side).xor (hacc b side)) h
  | not32 q a d => exact halvesExtreme_of_completeAcc hs (fun side => halfOf_not _ side ▸ (hacc a side).not) h
  | and16 q a b d => exact halvesExtreme_of_completeHalf hs ((hhalf a).and (hhalf b)) h
  | or16 q a b d => exact halvesExtreme_of_completeHalf hs ((hhalf a).or (hhalf b)) h
  | xor16 q a b d => exact halvesExtreme_of_completeHalf hs ((hhalf a).xor (hhalf b)) h
  | not16 q a d => exact halvesExtreme_of_completeHalf hs (hhalf a).not h
  | shiftra32 | shiftll32 | shiftrl32 | shiftra16 | shiftll16 | shiftrl16 => cases hi

/-- A shift of a `$acc` register by an amount below 16 writes the value that it read. -/
theorem halvesExtreme_of_shift32 {kind : ShiftKind} {a : Acc} {b : Half} {d : Acc} (hb : (s.readHalf b).toNat < 16)
    (h : shift32 kind a b d s = .next t) : t.halvesExtreme := by
  rw [shift32, (extremeHalf_readHalf hs b).toNat_eq_zero hb, shiftResult_zero kind (by decide)] at h
  exact halvesExtreme_of_completeAcc hs (extremeWord_readAcc hs a) h

/-- A shift of a half register by an amount below 16 writes the value that it read. -/
theorem halvesExtreme_of_shift16 {kind : ShiftKind} {a b d : Half} (hb : (s.readHalf b).toNat < 16)
    (h : shift16 kind a b d s = .next t) : t.halvesExtreme := by
  rw [shift16, (extremeHalf_readHalf hs b).toNat_eq_zero hb, shiftResult_zero kind (by decide)] at h
  exact halvesExtreme_of_completeHalf hs (extremeHalf_readHalf hs a) h

end

/-- Settles O49: the bitwise operations keep extreme halves extreme, and the one amount in range is 0. -/
theorem logicKeepsExtremeHalves : Obligations.LogicKeepsExtremeHalves := by
  refine ⟨fun i s t hi hs h => halvesExtreme_of_logic hs hi h, fun i s t hi hs hb h => ?_⟩
  cases i with
  | and32 | or32 | xor32 | not32 | and16 | or16 | xor16 | not16 => cases hi
  | shiftra32 q a b d | shiftll32 q a b d | shiftrl32 q a b d =>
    exact halvesExtreme_of_shift32 hs (hb b (.head _)) h
  | shiftra16 q a b d | shiftll16 q a b d | shiftrl16 q a b d =>
    exact halvesExtreme_of_shift16 hs (hb b (.head _)) h

end Sys2Proof.Machine

namespace Sys2Proof

/-! ### Byte images (20_memory.md R32) -/

theorem loadImage_bytesOfWord_append (o : ByteOrder) (w : Word) (rest : List Byte) {ws : List Word}
    (h : loadImage o rest = .ok ws) : loadImage o (bytesOfWord o w ++ rest) = .ok (w :: ws) := by
  have hbytes : w.extractLsb' 24 8 ++ w.extractLsb' 16 8 ++ w.extractLsb' 8 8 ++ w.extractLsb' 0 8 = w := by
    simp only [BitVec.extractLsb'_append_extractLsb'_eq_extractLsb']
    exact BitVec.extractLsb'_eq_self
  cases o <;> simp only [bytesOfWord, List.cons_append, List.nil_append, loadImage, h, wordOfBytes, hbytes]

theorem loadImage_flatMap_bytesOfWord (o : ByteOrder) (ws : List Word) :
    loadImage o (ws.flatMap (bytesOfWord o)) = .ok ws := by
  induction ws with
  | nil => rfl
  | cons w ws ih => exact loadImage_bytesOfWord_append o w _ ih

theorem loadImage_of_partial (o : ByteOrder) (bytes : List Byte) (h : bytes.length % 4 ≠ 0) :
    loadImage o bytes = .error .partialWord := by
  fun_induction loadImage o bytes with
  | case1 => simp at h
  | case2 b0 b1 b2 b3 rest ws hrest ih =>
    simp only [List.length_cons] at h
    cases hrest.symm.trans (ih (by omega))
  | case3 b0 b1 b2 b3 rest e hrest ih =>
    simp only [List.length_cons] at h
    exact hrest.symm.trans (ih (by omega))
  | case4 => rfl

/-- Settles O47: a word's four bytes are read back in the order they were written, and four bytes at a time leave the
remainder of the length. -/
theorem byteImageLoadsToTheSameWords : Obligations.ByteImageLoadsToTheSameWords :=
  ⟨loadImage_flatMap_bytesOfWord, fun _ => ⟨rfl, rfl⟩, loadImage_of_partial⟩

end Sys2Proof
